-- ==== Sys2Proof/Word.lean ====
section
/-!
DEFINITION. The widths of the values of the CHIP-8 core (00_scope.md R6, R8): every value is unsigned.
-/

namespace Sys2Proof

/-- A byte: a general register, a memory cell, a timer, the immediate kk (R6, R71). -/
abbrev Byte := BitVec 8

/-- A 16-bit value: pc, I, a stack entry, an instruction word (R6). -/
abbrev Word := BitVec 16

/-- A 4-bit instruction field: the register numbers x and y, the row count n (R71). -/
abbrev Nibble := BitVec 4

/-- The 12-bit instruction field nnn (R71). -/
abbrev Addr := BitVec 12

end Sys2Proof
end

