-- ==== Sys2Proof/Syntax.lean ====
section
/-!
DEFINITION. The instructions: one constructor per row of 30_encoding.md R77, with the operand fields that row's
handler uses, and the no-op of the unpopulated slots (R78).
-/

namespace Sys2Proof

inductive Instr where
  /-- CLS, 0**0: clear the framebuffer (R120). -/
  | cls
  /-- RET, 0**E: return from subroutine (R140). -/
  | ret
  /-- JP nnn, 1nnn: jump (R141). -/
  | jp (nnn : Addr)
  /-- CALL nnn, 2nnn: call subroutine (R142). -/
  | call (nnn : Addr)
  /-- SE Vx, kk, 3xkk: skip if Vx = kk (R143). -/
  | seImm (x : Nibble) (kk : Byte)
  /-- SNE Vx, kk, 4xkk: skip if Vx ≠ kk (R144). -/
  | sneImm (x : Nibble) (kk : Byte)
  /-- SE Vx, Vy, 5xyn for every n: skip if Vx = Vy (R145). -/
  | seReg (x y : Nibble)
  /-- LD Vx, kk, 6xkk (R170). -/
  | ldImm (x : Nibble) (kk : Byte)
  /-- ADD Vx, kk, 7xkk (R171). -/
  | addImm (x : Nibble) (kk : Byte)
  /-- LD Vx, Vy, 8xy0 (R172). -/
  | ldReg (x y : Nibble)
  /-- OR Vx, Vy, 8xy1 (R173). -/
  | orReg (x y : Nibble)
  /-- AND Vx, Vy, 8xy2 (R174). -/
  | andReg (x y : Nibble)
  /-- XOR Vx, Vy, 8xy3 (R175). -/
  | xorReg (x y : Nibble)
  /-- ADD Vx, Vy, 8xy4 (R176). -/
  | addReg (x y : Nibble)
  /-- SUB Vx, Vy, 8xy5 (R177). -/
  | subReg (x y : Nibble)
  /-- SHR Vx, 8x*6: field y is ignored (R178). -/
  | shr (x : Nibble)
  /-- SUBN Vx, Vy, 8xy7 (R179). -/
  | subnReg (x y : Nibble)
  /-- SHL Vx, 8x*E: field y is ignored (R180). -/
  | shl (x : Nibble)
  /-- SNE Vx, Vy, 9xyn for every n: skip if Vx ≠ Vy (R146). -/
  | sneReg (x y : Nibble)
  /-- LD I, nnn, Annn (R210). -/
  | ldI (nnn : Addr)
  /-- JP V0, nnn, Bnnn (R147). -/
  | jpV0 (nnn : Addr)
  /-- RND Vx, kk, Cxkk (R181). -/
  | rnd (x : Nibble) (kk : Byte)
  /-- DRW Vx, Vy, n, Dxyn (R121). -/
  | drw (x y n : Nibble)
  /-- SKP Vx, Ex*E: skip if key Vx is pressed (R240). -/
  | skp (x : Nibble)
  /-- SKNP Vx, Ex*1: skip if key Vx is not pressed (R241). -/
  | sknp (x : Nibble)
  /-- LD Vx, DT, Fx07 (R242). -/
  | ldVxDt (x : Nibble)
  /-- LD Vx, K, Fx0A: wait for a key (R243). -/
  | ldVxK (x : Nibble)
  /-- LD DT, Vx, Fx15 (R244). -/
  | ldDtVx (x : Nibble)
  /-- LD ST, Vx, Fx18 (R245). -/
  | ldStVx (x : Nibble)
  /-- ADD I, Vx, Fx1E (R211). -/
  | addI (x : Nibble)
  /-- LD F, Vx, Fx29: point I at a glyph (R212). -/
  | ldF (x : Nibble)
  /-- LD B, Vx, Fx33: store decimal digits (R213). -/
  | ldB (x : Nibble)
  /-- LD [I], Vx, Fx55: store V0..Vx (R214). -/
  | ldMemVx (x : Nibble)
  /-- LD Vx, [I], Fx65: load V0..Vx (R215). -/
  | ldVxMem (x : Nibble)
  /-- NOP: a word `w` of an unpopulated slot (R78, R108). The word is kept, so that each of these words is an
  instruction of its own; that it is such a word is `Instr.WellFormed`. -/
  | nop (w : Word)
  deriving DecidableEq, Repr

end Sys2Proof
end

