-- ==== Sys2Proof/WellFormed.lean ====
section
/-!
DEFINITION. Which instruction terms are instructions of the hardware. Every field's range is its type, so the one
check is that NOP's word lies in the table of unpopulated slots of 30_encoding.md R78.
-/

namespace Sys2Proof

/-- The selectors of group 0x0 that R78's table lists as unpopulated. -/
def emptySlots0 : List Nat := [0x1, 0x2, 0x3, 0x4, 0x5, 0x6, 0x7, 0x8, 0x9, 0xA, 0xB, 0xC, 0xD, 0xF]

/-- The selectors of group 0x8 that R78's table lists as unpopulated. -/
def emptySlots8 : List Nat := [0x8, 0x9, 0xA, 0xB, 0xC, 0xD, 0xF]

/-- The selectors of group 0xE that R78's table lists as unpopulated. -/
def emptySlotsE : List Nat := [0x0, 0x2, 0x3, 0x4, 0x5, 0x6, 0x7, 0x8, 0x9, 0xA, 0xB, 0xC, 0xD, 0xF]

/-- The nine populated selectors of group 0xF; "every kk except" these is unpopulated (R78). -/
def usedSlotsF : List Nat := [0x07, 0x0A, 0x15, 0x18, 0x1E, 0x29, 0x33, 0x55, 0x65]

/-- The word lies in an unpopulated slot, by R78's table; the arithmetic is that of the word's number. -/
def unpopulated (w : Word) : Bool :=
  let group := w.toNat / 0x1000
  let low := w.toNat % 0x10
  (group == 0x0 && emptySlots0.contains low) ||
  (group == 0x8 && emptySlots8.contains low) ||
  (group == 0xE && emptySlotsE.contains low) ||
  (group == 0xF && !usedSlotsF.contains (w.toNat % 0x100))

/-- NOP stands only for words of unpopulated slots; every other constructor is well formed with any fields (R80). -/
def Instr.wellFormed : Instr → Bool
  | .nop w => unpopulated w
  | .cls | .ret | .jp _ | .call _ | .seImm _ _ | .sneImm _ _ | .seReg _ _ | .ldImm _ _ | .addImm _ _
  | .ldReg _ _ | .orReg _ _ | .andReg _ _ | .xorReg _ _ | .addReg _ _ | .subReg _ _ | .shr _ | .subnReg _ _
  | .shl _ | .sneReg _ _ | .ldI _ | .jpV0 _ | .rnd _ _ | .drw _ _ _ | .skp _ | .sknp _ | .ldVxDt _ | .ldVxK _
  | .ldDtVx _ | .ldStVx _ | .addI _ | .ldF _ | .ldB _ | .ldMemVx _ | .ldVxMem _ => true

/-- The instruction is one of the hardware's. -/
abbrev Instr.WellFormed (i : Instr) : Prop := i.wellFormed = true

end Sys2Proof
end

