-- ==== Sys2Proof/Decode.lean ====
section
/-!
DEFINITION. Field extraction, the two-level dispatch and the encoder (30_encoding.md R70–R83), and the byte order of
an instruction word (20_memory.md R55).
-/

namespace Sys2Proof

/-! ## Fields (R71, R72) -/

/-- `op = w[15:12]`: the top-level dispatch index. -/
def opField (w : Word) : Nibble := w.extractLsb' 12 4

/-- `x = w[11:8]`: a register number. -/
def xField (w : Word) : Nibble := w.extractLsb' 8 4

/-- `y = w[7:4]`: a register number. -/
def yField (w : Word) : Nibble := w.extractLsb' 4 4

/-- `n = w[3:0]`: a row count, or the second-level index of groups 0x0, 0x8, 0xE. -/
def nField (w : Word) : Nibble := w.extractLsb' 0 4

/-- `kk = w[7:0]`: an immediate byte, or the second-level index of group 0xF. -/
def kkField (w : Word) : Byte := w.extractLsb' 0 8

/-- `nnn = w[11:0]`: an address. -/
def nnnField (w : Word) : Addr := w.extractLsb' 0 12

/-- The instruction word of two bytes, most significant byte first (R55). -/
def wordOfBytes (hi lo : Byte) : Word := hi ++ lo

/-- The first byte of a word in memory: its most significant one (R55). -/
def hiByte (w : Word) : Byte := w.extractLsb' 8 8

/-- The second byte of a word in memory (R55). -/
def loByte (w : Word) : Byte := w.extractLsb' 0 8

/-! ## Dispatch (R74–R81) -/

/-- Group 0x0, indexed by the low nibble alone: bits [11:4] play no part (R75). -/
def decode0 (w : Word) : Instr :=
  match nField w with
  | 0x0#4 => .cls
  | 0xE#4 => .ret
  | _ => .nop w

/-- Group 0x8, indexed by the low nibble (R75). -/
def decode8 (w : Word) : Instr :=
  match nField w with
  | 0x0#4 => .ldReg (xField w) (yField w)
  | 0x1#4 => .orReg (xField w) (yField w)
  | 0x2#4 => .andReg (xField w) (yField w)
  | 0x3#4 => .xorReg (xField w) (yField w)
  | 0x4#4 => .addReg (xField w) (yField w)
  | 0x5#4 => .subReg (xField w) (yField w)
  | 0x6#4 => .shr (xField w)
  | 0x7#4 => .subnReg (xField w) (yField w)
  | 0xE#4 => .shl (xField w)
  | _ => .nop w

/-- Group 0xE, indexed by the low nibble alone: bits [7:4] play no part (R75). -/
def decodeE (w : Word) : Instr :=
  match nField w with
  | 0x1#4 => .sknp (xField w)
  | 0xE#4 => .skp (xField w)
  | _ => .nop w

/-- Group 0xF, indexed by the low byte (R75). -/
def decodeF (w : Word) : Instr :=
  match kkField w with
  | 0x07#8 => .ldVxDt (xField w)
  | 0x0A#8 => .ldVxK (xField w)
  | 0x15#8 => .ldDtVx (xField w)
  | 0x18#8 => .ldStVx (xField w)
  | 0x1E#8 => .addI (xField w)
  | 0x29#8 => .ldF (xField w)
  | 0x33#8 => .ldB (xField w)
  | 0x55#8 => .ldMemVx (xField w)
  | 0x65#8 => .ldVxMem (xField w)
  | _ => .nop w

/-- The decoder, a total function from a word to an instruction (R81). The last case is the group 0xF. -/
def decodeWord (w : Word) : Instr :=
  match opField w with
  | 0x0#4 => decode0 w
  | 0x1#4 => .jp (nnnField w)
  | 0x2#4 => .call (nnnField w)
  | 0x3#4 => .seImm (xField w) (kkField w)
  | 0x4#4 => .sneImm (xField w) (kkField w)
  | 0x5#4 => .seReg (xField w) (yField w)
  | 0x6#4 => .ldImm (xField w) (kkField w)
  | 0x7#4 => .addImm (xField w) (kkField w)
  | 0x8#4 => decode8 w
  | 0x9#4 => .sneReg (xField w) (yField w)
  | 0xA#4 => .ldI (nnnField w)
  | 0xB#4 => .jpV0 (nnnField w)
  | 0xC#4 => .rnd (xField w) (kkField w)
  | 0xD#4 => .drw (xField w) (yField w) (nField w)
  | 0xE#4 => decodeE w
  | _ => decodeF w

/-- Why a list of bytes holds no instruction word: no word is refused (R80), a list shorter than one is. -/
inductive DecodeError where
  /-- Fewer than the two bytes of an instruction (R70). Log entry 6, safe. -/
  | truncated
  deriving DecidableEq, Repr

/-- The instruction at the head of a list of bytes, and the bytes after it: every instruction is two bytes (R70). -/
def decode : List Byte → Except DecodeError (Instr × List Byte)
  | hi :: lo :: rest => .ok (decodeWord (wordOfBytes hi lo), rest)
  | [_] | [] => .error .truncated

/-! ## Encoder -/

/-- A word of the four fields op, x, y, n (R71's first row). -/
def packXYN (op x y n : Nibble) : Word := op ++ x ++ y ++ n

/-- A word of the fields op, x, kk (R71's second row). -/
def packXKK (op x : Nibble) (kk : Byte) : Word := op ++ x ++ kk

/-- A word of the fields op, nnn (R71's third row). -/
def packNNN (op : Nibble) (nnn : Addr) : Word := op ++ nnn

/-- The canonical word of an instruction: R77's pattern, with the bits no handler uses as that pattern shows them,
and 0 for the ignored field y of 8xy6 and 8xyE. Log entry 7. -/
def encodeWord : Instr → Word
  | .cls => 0x00E0#16
  | .ret => 0x00EE#16
  | .jp nnn => packNNN 0x1#4 nnn
  | .call nnn => packNNN 0x2#4 nnn
  | .seImm x kk => packXKK 0x3#4 x kk
  | .sneImm x kk => packXKK 0x4#4 x kk
  | .seReg x y => packXYN 0x5#4 x y 0x0#4
  | .ldImm x kk => packXKK 0x6#4 x kk
  | .addImm x kk => packXKK 0x7#4 x kk
  | .ldReg x y => packXYN 0x8#4 x y 0x0#4
  | .orReg x y => packXYN 0x8#4 x y 0x1#4
  | .andReg x y => packXYN 0x8#4 x y 0x2#4
  | .xorReg x y => packXYN 0x8#4 x y 0x3#4
  | .addReg x y => packXYN 0x8#4 x y 0x4#4
  | .subReg x y => packXYN 0x8#4 x y 0x5#4
  | .shr x => packXYN 0x8#4 x 0x0#4 0x6#4
  | .subnReg x y => packXYN 0x8#4 x y 0x7#4
  | .shl x => packXYN 0x8#4 x 0x0#4 0xE#4
  | .sneReg x y => packXYN 0x9#4 x y 0x0#4
  | .ldI nnn => packNNN 0xA#4 nnn
  | .jpV0 nnn => packNNN 0xB#4 nnn
  | .rnd x kk => packXKK 0xC#4 x kk
  | .drw x y n => packXYN 0xD#4 x y n
  | .skp x => packXKK 0xE#4 x 0x9E#8
  | .sknp x => packXKK 0xE#4 x 0xA1#8
  | .ldVxDt x => packXKK 0xF#4 x 0x07#8
  | .ldVxK x => packXKK 0xF#4 x 0x0A#8
  | .ldDtVx x => packXKK 0xF#4 x 0x15#8
  | .ldStVx x => packXKK 0xF#4 x 0x18#8
  | .addI x => packXKK 0xF#4 x 0x1E#8
  | .ldF x => packXKK 0xF#4 x 0x29#8
  | .ldB x => packXKK 0xF#4 x 0x33#8
  | .ldMemVx x => packXKK 0xF#4 x 0x55#8
  | .ldVxMem x => packXKK 0xF#4 x 0x65#8
  | .nop w => w

/-- The instruction's two bytes in memory order (R55). -/
def encode (i : Instr) : List Byte := [hiByte (encodeWord i), loByte (encodeWord i)]

/-! ## The opcode table (R77) -/

/-- One row of R77's table: a word selects the row when `w &&& mask = pattern`. -/
structure OpcodeRow where
  pattern : Word
  mask : Word
  build : Word → Instr

/-- The word selects the row. -/
def OpcodeRow.selects (r : OpcodeRow) (w : Word) : Bool := w &&& r.mask == r.pattern

/-- R77's 34 rows in its order, with the instruction each one's words stand for. -/
def opcodeRows : List OpcodeRow :=
  [ ⟨0x0000#16, 0xF00F#16, fun _ => .cls⟩,
    ⟨0x000E#16, 0xF00F#16, fun _ => .ret⟩,
    ⟨0x1000#16, 0xF000#16, fun w => .jp (nnnField w)⟩,
    ⟨0x2000#16, 0xF000#16, fun w => .call (nnnField w)⟩,
    ⟨0x3000#16, 0xF000#16, fun w => .seImm (xField w) (kkField w)⟩,
    ⟨0x4000#16, 0xF000#16, fun w => .sneImm (xField w) (kkField w)⟩,
    ⟨0x5000#16, 0xF000#16, fun w => .seReg (xField w) (yField w)⟩,
    ⟨0x6000#16, 0xF000#16, fun w => .ldImm (xField w) (kkField w)⟩,
    ⟨0x7000#16, 0xF000#16, fun w => .addImm (xField w) (kkField w)⟩,
    ⟨0x8000#16, 0xF00F#16, fun w => .ldReg (xField w) (yField w)⟩,
    ⟨0x8001#16, 0xF00F#16, fun w => .orReg (xField w) (yField w)⟩,
    ⟨0x8002#16, 0xF00F#16, fun w => .andReg (xField w) (yField w)⟩ ] ++
  [ ⟨0x8003#16, 0xF00F#16, fun w => .xorReg (xField w) (yField w)⟩,
    ⟨0x8004#16, 0xF00F#16, fun w => .addReg (xField w) (yField w)⟩,
    ⟨0x8005#16, 0xF00F#16, fun w => .subReg (xField w) (yField w)⟩,
    ⟨0x8006#16, 0xF00F#16, fun w => .shr (xField w)⟩,
    ⟨0x8007#16, 0xF00F#16, fun w => .subnReg (xField w) (yField w)⟩,
    ⟨0x800E#16, 0xF00F#16, fun w => .shl (xField w)⟩,
    ⟨0x9000#16, 0xF000#16, fun w => .sneReg (xField w) (yField w)⟩,
    ⟨0xA000#16, 0xF000#16, fun w => .ldI (nnnField w)⟩,
    ⟨0xB000#16, 0xF000#16, fun w => .jpV0 (nnnField w)⟩,
    ⟨0xC000#16, 0xF000#16, fun w => .rnd (xField w) (kkField w)⟩,
    ⟨0xD000#16, 0xF000#16, fun w => .drw (xField w) (yField w) (nField w)⟩ ] ++
  [ ⟨0xE00E#16, 0xF00F#16, fun w => .skp (xField w)⟩,
    ⟨0xE001#16, 0xF00F#16, fun w => .sknp (xField w)⟩,
    ⟨0xF007#16, 0xF0FF#16, fun w => .ldVxDt (xField w)⟩,
    ⟨0xF00A#16, 0xF0FF#16, fun w => .ldVxK (xField w)⟩,
    ⟨0xF015#16, 0xF0FF#16, fun w => .ldDtVx (xField w)⟩,
    ⟨0xF018#16, 0xF0FF#16, fun w => .ldStVx (xField w)⟩,
    ⟨0xF01E#16, 0xF0FF#16, fun w => .addI (xField w)⟩,
    ⟨0xF029#16, 0xF0FF#16, fun w => .ldF (xField w)⟩,
    ⟨0xF033#16, 0xF0FF#16, fun w => .ldB (xField w)⟩,
    ⟨0xF055#16, 0xF0FF#16, fun w => .ldMemVx (xField w)⟩,
    ⟨0xF065#16, 0xF0FF#16, fun w => .ldVxMem (xField w)⟩ ]

/-! ## Words numbered as the opcode table numbers them -/

/-- The word whose bits are the low `nbits` of `w`, every bit above them 0. -/
def tableWord (nbits w : Nat) : Word := BitVec.ofNat 16 (w % 2 ^ nbits)

/-- What the decoder reads from the two bytes of the table's word `w`, laid out most significant byte first. -/
def decodeTableWord (nbits w : Nat) : Option Instr :=
  match decode [hiByte (tableWord nbits w), loByte (tableWord nbits w)] with
  | .ok (i, _) => some i
  | .error _ => none

end Sys2Proof
end

