-- ==== Sys2Proof/Machine/Flags.lean ====
section
/-!
DEFINITION. The values written to the flag register VF (10_state.md R25): each is the byte 0 or 1 (D4).
-/

namespace Sys2Proof.Machine

/-- `bool(c)` as a register value (R9). -/
def flag (c : Bool) : Byte := if c then 1#8 else 0#8

/-- Carry of 8xy4: the 9-bit sum exceeds 255 (R176). -/
def carryFlag (a b : Byte) : Byte := flag (decide (a.toNat + b.toNat > 255))

/-- NOT borrow of 8xy5 and 8xy7: the minuend is STRICTLY greater (R177, R179). -/
def noBorrowFlag (minuend subtrahend : Byte) : Byte := flag (decide (minuend.toNat > subtrahend.toNat))

/-- The bit a right shift moves out: bit 0 (R178). -/
def lowBitFlag (a : Byte) : Byte := flag (a.getLsbD 0)

/-- The bit a left shift moves out: bit 7, as 0 or 1 (R180). -/
def highBitFlag (a : Byte) : Byte := flag (a.getLsbD 7)

end Sys2Proof.Machine
end

