-- ==== Sys2Proof/Config.lean ====
section
/-!
DEFINITION. The implementation parameters of 00_scope.md R6. The two the spec leaves OPEN (D13, D14) and the free
random byte (D15) are constants without a body, so no proof can see their values.
-/

namespace Sys2Proof.Config

/-- MEM_SIZE: memory addresses are 0x000–0xFFF (R6, R50). -/
abbrev memSize : Nat := 4096

/-- ENTRY: the reset pc, and the address of the first byte `load` writes (R6, R301). -/
abbrev entry : Nat := 0x200

/-- The first address after the range reserved for interpreter and font use (R6, R59). -/
abbrev reservedEnd : Nat := 0x200

/-- FONT_GLYPHS × GLYPH_BYTES = 16 × 5 (R6). -/
abbrev fontSize : Nat := 80

/-- GLYPH_BYTES (R6). -/
abbrev glyphBytes : Nat := 5

/-- ROM_MAX = 0x1000 − 0x200 (R6, R302, C2). -/
abbrev romMax : Nat := 3584

/-- FONT_BASE, OPEN: any address with FONT_BASE + 80 ≤ 0x200 (R6, D13), the bound carried by the type.
Log entry 1. -/
opaque fontBase : Fin 433

/-- FONT_DATA, OPEN: the 80 glyph bytes (R6, D14). Log entry 2. -/
opaque fontData : Vector Byte 80

/-- RAND: the random byte of the k-th draw of Cxkk, any value 0..255 (R6, R181, D15). A free value: nothing
constrains it. Log entry 3. -/
opaque randomByte : Nat → Byte

end Sys2Proof.Config
end

