-- ==== Sys2Proof/Machine/State.lean ====
section
/-!
DEFINITION. The state record of 10_state.md R20, the fault record of 60_exceptions.md R273, the reasons a step can
stop, and the state after `initialize()` (R39, R300).
-/

namespace Sys2Proof.Machine

/-- The six fault causes, in the order of their codes 1 to 6 (R271). -/
inductive FaultCause where
  /-- 1, FetchFault: the fetch of every step, pc ≥ 0xFFF (R102). -/
  | fetch
  /-- 2, MemReadFault: Dxyn and Fx65 (R121, R215). -/
  | memRead
  /-- 3, MemWriteFault: Fx33 and Fx55 (R213, R214). -/
  | memWrite
  /-- 4, StackOverflowFault: 2nnn with sp = 16 (R142). -/
  | stackOverflow
  /-- 5, StackUnderflowFault: 00EE with sp = 0 (R140). -/
  | stackUnderflow
  /-- 6, KeyIndexFault: Ex9E and ExA1 with V[x] > 0xF (R240, R241). -/
  | keyIndex
  deriving DecidableEq, Repr

/-- The fault record `(cause, A, word, info)` (R273). -/
structure FaultRecord where
  /-- The cause of R271. -/
  cause : FaultCause
  /-- The address of the faulting instruction, which pc keeps. -/
  addr : Word
  /-- The fetched word, none for a FetchFault. -/
  word : Option Word
  /-- R271's last column: the lowest bad address, sp, or the key number. -/
  info : Nat
  deriving DecidableEq, Repr

/-- The core's state (R20). -/
structure State where
  /-- V0..VF (R21). -/
  v : Vector Byte 16
  /-- The memory cells that differ from the reset contents, by rising address (R50, R39). -/
  mem : List Host.Cell
  /-- The index register I (R28). -/
  index : Word
  /-- The program counter (R29). -/
  pc : Word
  /-- The call stack (R31). -/
  stack : Vector Word 16
  /-- The stack pointer, an integer 0..16 (R32). -/
  sp : Fin 17
  /-- The delay timer DT (R33). -/
  dt : Byte
  /-- The sound timer ST (R34). -/
  st : Byte
  /-- The keypad slots KEY (R36). -/
  key : Vector Bool 16
  /-- The framebuffer FB, 32 rows of 64 pixels (R35). -/
  fb : Vector (Vector Bool 64) 32
  /-- The opcode latch (R37). -/
  opcode : Word
  /-- The fault field: none, or the record of the fault that stopped the core (R20, R273). -/
  fault : Option FaultRecord
  /-- The model's own field: how many free random bytes have been drawn. Log entry 3. -/
  draws : Nat
  deriving DecidableEq, Repr

/-- Why a step stops the machine. -/
inductive Fault where
  /-- `step` on a core whose `fault` field holds a record: the core is stuck until `initialize()` (R101, R276).
  Raised by `step` alone. Safe: the spec gives that step no effect and calls the state a stop. -/
  | stuck (r : FaultRecord)
  deriving DecidableEq, Repr

/-- Why an instruction has no meaning in the model. -/
inductive Refusal where
  /-- An instruction without a meaning, rejected by name in `exec`. Safe. No arm of this model answers it. -/
  | notModelled (mnemonic : String)
  deriving DecidableEq, Repr

/-- The state after `initialize()` (R39, R300): every field zero, the memory at its reset contents (the font at
FONT_BASE, 0 elsewhere: nothing listed), pc at ENTRY, no fault. -/
def State.reset : State where
  v := Vector.replicate 16 0#8
  mem := []
  index := 0#16
  pc := BitVec.ofNat 16 Config.entry
  stack := Vector.replicate 16 0#16
  sp := 0
  dt := 0#8
  st := 0#8
  key := Vector.replicate 16 false
  fb := Vector.replicate 32 (Vector.replicate 64 false)
  opcode := 0#16
  fault := none
  draws := 0

end Sys2Proof.Machine
end

