-- ==== Sys2Proof/Machine/Memory.lean ====
section
/-!
DEFINITION. The 4096 bytes of memory (20_memory.md R50) as a canonical list of the cells that differ from the reset
contents: one read and one write of a byte, and the ascending store of several.
-/

namespace Sys2Proof.Machine

/-- A memory: its cells that differ from the reset contents. -/
abbrev Memory := List Host.Cell

/-- What an address that no cell lists reads as: the reset contents of R39, FONT_DATA from FONT_BASE and 0
everywhere else. The font lies below 0x200 whatever FONT_BASE is (R6). -/
def Memory.unlisted (a : Nat) : Byte :=
  if a < Config.reservedEnd then
    if h : Config.fontBase.val ≤ a ∧ a - Config.fontBase.val < Config.fontSize then
      Config.fontData[a - Config.fontBase.val]'h.2
    else 0#8
  else 0#8

/-- The byte at an address (R51's `mem[a]`). -/
def Memory.read : Memory → Nat → Byte
  | [], a => Memory.unlisted a
  | (b, w) :: rest, a => if a = b then w else Memory.read rest a

/-- Store a byte at an address (R52's `mem[a] <- v`), keeping the list sorted and without a cell that holds what an
unlisted address reads as. -/
def Memory.write : Memory → Nat → Byte → Memory
  | [], a, v => if v = Memory.unlisted a then [] else [(a, v)]
  | (b, w) :: rest, a, v =>
    if a < b then
      if v = Memory.unlisted a then (b, w) :: rest else (a, v) :: (b, w) :: rest
    else if a = b then
      if v = Memory.unlisted a then rest else (a, v) :: rest
    else (b, w) :: Memory.write rest a v

/-- Store bytes at ascending addresses from `base` (R57). -/
def Memory.writeList (m : Memory) (base : Nat) : List Byte → Memory
  | [] => m
  | b :: bs => Memory.writeList (Memory.write m base b) (base + 1) bs

/-- The cells lie at strictly rising addresses from `low` on, inside the address space, and none holds what an
unlisted address reads as. -/
def Memory.wfFrom (low : Nat) : Memory → Bool
  | [] => true
  | (a, v) :: rest =>
    decide (low ≤ a) && decide (a < Config.memSize) && decide (v ≠ Memory.unlisted a) && Memory.wfFrom (a + 1) rest

/-- The canonical form of a memory. -/
def Memory.wf (m : Memory) : Bool := Memory.wfFrom 0 m

end Sys2Proof.Machine
end

