-- ==== Sys2Proof/Machine/Operands.lean ====
section
/-!
DEFINITION. The operand forms: registers, immediates, key numbers, draw coordinates, decimal digits, glyph and jump
addresses, and the effective addresses of memory accesses (30_encoding.md R73, 20_memory.md R53).
-/

namespace Sys2Proof.Machine

/-- The number of the flag register VF (R24). -/
abbrev vf : Nibble := 0xF#4

/-- `V[x]` (R9, R21). -/
def State.getV (s : State) (x : Nibble) : Byte := s.v[x.toNat]'x.isLt

/-- `V[i]` for a counted register i of Fx55 (R214), i ≤ 15. -/
def State.getVNat (s : State) (i : Nat) : Byte := s.getV (BitVec.ofNat 4 i)

/-- The registers V0..Vx in ascending order, the bytes that Fx55 stores (R214). -/
def State.regsUpTo (s : State) (x : Nibble) : List Byte := (List.range (x.toNat + 1)).map s.getVNat

/-- `zext_16(nnn)`: an address field as a pc or an I (R73). -/
def zextAddr (nnn : Addr) : Word := nnn.setWidth 16

/-- `zext_16(b)`: a register as a summand of a 16-bit register (R73). -/
def zextByte (b : Byte) : Word := b.setWidth 16

/-- `zext_16(nnn) + V0`, at most 0x10FE, so it does not wrap (R147). -/
def indexedTarget (nnn : Addr) (v0 : Byte) : Word := zextAddr nnn + zextByte v0

/-- `(FONT_BASE + 5 * V[x]) mod 65536`; the value is not reduced to a hex digit (R212). -/
def glyphAddr (b : Byte) : Word := BitVec.ofNat 16 (Config.fontBase.val + Config.glyphBytes * b.toNat)

/-- The start column `V[x] mod 64` of a draw (R121). -/
def startCol (b : Byte) : Nat := b.toNat % 64

/-- The start row `V[y] mod 32` of a draw (R121). -/
def startRow (b : Byte) : Nat := b.toNat % 32

/-- The bit of a sprite row in column c, most significant bit first: bit 7 − c (R121). -/
def spriteBit (row : Byte) (c : Nat) : Bool := row.getLsbD (7 - c)

/-- The decimal digits of a byte, hundreds, tens, units: digit values, not characters (R213). -/
def decimalDigits (b : Byte) : List Byte :=
  [BitVec.ofNat 8 (b.toNat / 100), BitVec.ofNat 8 (b.toNat / 10 % 10), BitVec.ofNat 8 (b.toNat % 10)]

/-- The slot of key number k, and the number itself where there is no such slot, k > 15 (R240, R241). -/
def State.keySlot (s : State) (k : Byte) : Except Nat Bool :=
  if h : k.toNat < 16 then .ok (s.key[k.toNat]'h) else .error k.toNat

/-- The lowest pressed key number, by the ascending scan of R243. -/
def State.firstPressed (s : State) : Option Nat := (List.range 16).find? fun k => s.key[k]?.getD false

/-- The addresses of an `n`-byte access, base plus offset as natural numbers, with no wrap (R53). -/
def effectiveAddrs (base n : Nat) : List Nat := (List.range n).map (base + ·)

/-- The lowest address ≥ 4096 of an access, if there is one (R54). -/
def firstOutOfRange (base n : Nat) : Option Nat := (effectiveAddrs base n).find? fun a => decide (Config.memSize ≤ a)

end Sys2Proof.Machine
end

