-- ==== Sys2Proof/Machine/Ops.lean ====
section
/-!
DEFINITION. The named operations over the state: writes of registers, pc, stack, pixels and timers, checked memory
access, taking a fault and the way out of it, and the parts of a step around its handler (40_cycle.md R100–R111).
-/

namespace Sys2Proof.Machine

/-! ## Registers, pc, stack -/

/-- `V[x] <- b` (R9). -/
def State.setV (s : State) (x : Nibble) (b : Byte) : State := { s with v := s.v.set x.toNat b x.isLt }

/-- `I <- w` (R28). -/
def State.setIndex (s : State) (w : Word) : State := { s with index := w }

/-- `pc <- w` (R29). -/
def State.setPc (s : State) (w : Word) : State := { s with pc := w }

/-- `if c: pc <- (pc + 2) mod 65536` (R143). -/
def State.skipIf (s : State) (c : Bool) : State := if c then s.setPc (s.pc + 2#16) else s

/-- `pc <- (pc - 2) mod 65536`: the same word is fetched in the next step (R243). -/
def State.repeatInstr (s : State) : State := s.setPc (s.pc - 2#16)

/-- Push, for sp < 16: store at `stack[sp]`, then increment (R31, R142, C1). -/
def State.push (s : State) (w : Word) (h : s.sp.val < 16) : State :=
  { s with stack := s.stack.set s.sp.val w h, sp := ⟨s.sp.val + 1, Nat.succ_lt_succ h⟩ }

/-- The entry `stack[sp - 1]` that a pop loads, for sp > 0 (R31). -/
def State.topEntry (s : State) (h : 0 < s.sp.val) : Word := s.stack[s.sp.val - 1]'(by have := s.sp.isLt; omega)

/-- Pop into pc, for sp > 0: decrement, then load; the entry keeps its value (R31, R140, C1). -/
def State.popPc (s : State) (h : 0 < s.sp.val) : State :=
  { s with sp := ⟨s.sp.val - 1, by have := s.sp.isLt; omega⟩, pc := s.topEntry h }

/-! ## Timers and the random byte -/

/-- `DT <- b` (R244). -/
def State.setDt (s : State) (b : Byte) : State := { s with dt := b }

/-- `ST <- b` (R245). -/
def State.setSt (s : State) (b : Byte) : State := { s with st := b }

/-- One count down, stopping at 0 (R106). -/
def countDown (t : Byte) : Byte := if t = 0#8 then 0#8 else t - 1#8

/-- The timer tick at the end of a completed step (R106). -/
def State.tick (s : State) : State := { s with dt := countDown s.dt, st := countDown s.st }

/-- `draw_byte()`: the step's free random byte (R9, D15). Log entry 3. -/
def State.drawnByte (s : State) : Byte := Config.randomByte s.draws

/-- The next draw is another one. Log entry 3. -/
def State.countDraw (s : State) : State := { s with draws := s.draws + 1 }

/-! ## Framebuffer -/

/-- `FB[row][col]` (R35). -/
def State.pixel (s : State) (row : Fin 32) (col : Fin 64) : Bool := (s.fb[row.val]'row.isLt)[col.val]'col.isLt

/-- `FB[row][col] <- p` (R35). -/
def State.setPixel (s : State) (row : Fin 32) (col : Fin 64) (p : Bool) : State :=
  { s with fb := s.fb.set row.val ((s.fb[row.val]'row.isLt).set col.val p col.isLt) row.isLt }

/-- Every pixel clear (R120). -/
def State.clearPixels (s : State) : State := { s with fb := Vector.replicate 32 (Vector.replicate 64 false) }

/-- A set sprite bit on a pixel: collision if it was set, then toggle (R121). -/
def State.drawBit (s : State) (row : Fin 32) (col : Fin 64) : State :=
  let hit := s.pixel row col
  (if hit then s.setV vf 1#8 else s).setPixel row col (!hit)

/-- The eight columns of one sprite row, from the row `prow` and the start column `xc`, with wrap (R121). -/
def State.drawRow (s : State) (prow : Fin 32) (xc : Nat) (bits : Byte) : State :=
  (List.range 8).foldl
    (fun t c => if spriteBit bits c then t.drawBit prow (Fin.ofNat 64 (xc + c)) else t) s

/-- The sprite rows from row `r` on, row r on the pixel row (yc + r) mod 32 (R121). -/
def State.drawRows (s : State) (xc yc r : Nat) : List Byte → State
  | [] => s
  | bits :: rest => (s.drawRow (Fin.ofNat 32 (yc + r)) xc bits).drawRows xc yc (r + 1) rest

/-! ## Memory access (R51–R54) -/

/-- The `n` bytes at `base`, or the lowest address out of range; every address is checked first (R51, R54). -/
def State.readBytes (s : State) (base n : Nat) : Except Nat (List Byte) :=
  match firstOutOfRange base n with
  | some a => .error a
  | none => .ok ((effectiveAddrs base n).map (Memory.read s.mem))

/-- Store bytes from `base` on, or the lowest address out of range and nothing stored (R52, R54). -/
def State.writeBytes (s : State) (base : Nat) (bs : List Byte) : Except Nat State :=
  match firstOutOfRange base bs.length with
  | some a => .error a
  | none => .ok { s with mem := Memory.writeList s.mem base bs }

/-- `V[i] <- b` for the bytes in order, from register i on (R215). -/
def State.loadRegs (s : State) (i : Nat) : List Byte → State
  | [] => s
  | b :: bs => (s.setV (BitVec.ofNat 4 i) b).loadRegs (i + 1) bs

/-! ## Faults -/

/-- The code of a cause (R271). -/
def FaultCause.code : FaultCause → Nat
  | .fetch => 1
  | .memRead => 2
  | .memWrite => 3
  | .stackOverflow => 4
  | .stackUnderflow => 5
  | .keyIndex => 6

/-- Taking a fault: the record is written, and nothing else changes (R107, R273, R275). -/
def State.takeFault (s : State) (cause : FaultCause) (addr : Word) (word : Option Word) (info : Nat) : State :=
  { s with fault := some ⟨cause, addr, word, info⟩ }

/-- `raise` in a handler: pc already holds A + 2, and the latch the fetched word (R103, R273). -/
def State.raise (s : State) (cause : FaultCause) (info : Nat) : State :=
  s.takeFault cause (s.pc - 2#16) (some s.opcode) info

/-- `initialize()`, the only way out of a fault: the reset state from any state (R276, R300). The model's own count
of draws goes on, so that no draw is repeated (log entry 3). -/
def State.hostInitialize (s : State) : State := { State.reset with draws := s.draws }

/-! ## The step around its handler (R102–R107) -/

/-- The word at pc, most significant byte first, or the first address out of range (R102). -/
def State.fetchWord (s : State) : Except Nat Word :=
  match firstOutOfRange s.pc.toNat 2 with
  | some a => .error a
  | none => .ok (wordOfBytes (Memory.read s.mem s.pc.toNat) (Memory.read s.mem (s.pc.toNat + 1)))

/-- `opcode <- w`, then `pc <- (A + 2) mod 65536`: the state a handler starts from (R102, R103). -/
def State.latch (s : State) (w : Word) : State := { s with opcode := w, pc := s.pc + 2#16 }

/-- The end of a step that began in `save`: the timers tick if the handler completed, and a fault undoes everything
but the record (R106, R107). -/
def State.finish (save s : State) : State :=
  match s.fault with
  | none => s.tick
  | some r => { save with fault := some r }

end Sys2Proof.Machine
end

