-- ==== Sys2Proof/Machine/Alu.lean ====
section
/-!
DEFINITION. The register and ALU instructions (43_alu.md). Each statement reads the registers as the statement before
left them (00_scope.md R10, D2), which matters only when x or y is 0xF.
-/

namespace Sys2Proof.Machine

/-- LD Vx, kk (R170). -/
def execLdImm (x : Nibble) (kk : Byte) (s : State) : Host.Outcome State Fault Refusal := .next (s.setV x kk)

/-- ADD Vx, kk: mod 256, no flag (R171). -/
def execAddImm (x : Nibble) (kk : Byte) (s : State) : Host.Outcome State Fault Refusal :=
  .next (s.setV x (s.getV x + kk))

/-- LD Vx, Vy (R172). -/
def execLdReg (x y : Nibble) (s : State) : Host.Outcome State Fault Refusal := .next (s.setV x (s.getV y))

/-- OR Vx, Vy (R173). -/
def execOrReg (x y : Nibble) (s : State) : Host.Outcome State Fault Refusal :=
  .next (s.setV x (s.getV x ||| s.getV y))

/-- AND Vx, Vy (R174). -/
def execAndReg (x y : Nibble) (s : State) : Host.Outcome State Fault Refusal :=
  .next (s.setV x (s.getV x &&& s.getV y))

/-- XOR Vx, Vy (R175). -/
def execXorReg (x y : Nibble) (s : State) : Host.Outcome State Fault Refusal :=
  .next (s.setV x (s.getV x ^^^ s.getV y))

/-- ADD Vx, Vy: the sum of the old values, VF, then Vx (R176, D3). -/
def execAddReg (x y : Nibble) (s : State) : Host.Outcome State Fault Refusal :=
  .next ((s.setV vf (carryFlag (s.getV x) (s.getV y))).setV x (s.getV x + s.getV y))

/-- SUB Vx, Vy: VF first, then Vx from the registers as they then stand (R177, D2). -/
def execSubReg (x y : Nibble) (s : State) : Host.Outcome State Fault Refusal :=
  let s1 := s.setV vf (noBorrowFlag (s.getV x) (s.getV y))
  .next (s1.setV x (s1.getV x - s1.getV y))

/-- SHR Vx (R178, D2). -/
def execShr (x : Nibble) (s : State) : Host.Outcome State Fault Refusal :=
  let s1 := s.setV vf (lowBitFlag (s.getV x))
  .next (s1.setV x (s1.getV x >>> 1))

/-- SUBN Vx, Vy: the operands of SUB exchanged (R179, D2). -/
def execSubnReg (x y : Nibble) (s : State) : Host.Outcome State Fault Refusal :=
  let s1 := s.setV vf (noBorrowFlag (s.getV y) (s.getV x))
  .next (s1.setV x (s1.getV y - s1.getV x))

/-- SHL Vx (R180, D2, D4). -/
def execShl (x : Nibble) (s : State) : Host.Outcome State Fault Refusal :=
  let s1 := s.setV vf (highBitFlag (s.getV x))
  .next (s1.setV x (s1.getV x <<< 1))

/-- RND Vx, kk: a free byte ANDed with kk (R181, D15). -/
def execRnd (x : Nibble) (kk : Byte) (s : State) : Host.Outcome State Fault Refusal :=
  .next (s.countDraw.setV x (s.drawnByte &&& kk))

end Sys2Proof.Machine
end

