-- ==== Sys2Proof/Machine/ControlFlow.lean ====
section
/-!
DEFINITION. The control-flow instructions (42_control_flow.md) and the no-op of the unpopulated slots (40_cycle.md
R108).
-/

namespace Sys2Proof.Machine

/-- RET (R140). -/
def execRet (s : State) : Host.Outcome State Fault Refusal :=
  if h : 0 < s.sp.val then .next (s.popPc h) else .next (s.raise .stackUnderflow s.sp.val)

/-- JP nnn (R141). -/
def execJp (nnn : Addr) (s : State) : Host.Outcome State Fault Refusal := .next (s.setPc (zextAddr nnn))

/-- CALL nnn: the pushed pc is A + 2 (R142). -/
def execCall (nnn : Addr) (s : State) : Host.Outcome State Fault Refusal :=
  if h : s.sp.val < 16 then .next ((s.push s.pc h).setPc (zextAddr nnn))
  else .next (s.raise .stackOverflow s.sp.val)

/-- SE Vx, kk (R143). -/
def execSeImm (x : Nibble) (kk : Byte) (s : State) : Host.Outcome State Fault Refusal :=
  .next (s.skipIf (s.getV x == kk))

/-- SNE Vx, kk (R144). -/
def execSneImm (x : Nibble) (kk : Byte) (s : State) : Host.Outcome State Fault Refusal :=
  .next (s.skipIf (s.getV x != kk))

/-- SE Vx, Vy (R145). -/
def execSeReg (x y : Nibble) (s : State) : Host.Outcome State Fault Refusal :=
  .next (s.skipIf (s.getV x == s.getV y))

/-- SNE Vx, Vy (R146). -/
def execSneReg (x y : Nibble) (s : State) : Host.Outcome State Fault Refusal :=
  .next (s.skipIf (s.getV x != s.getV y))

/-- JP V0, nnn: always V0, whatever field x holds (R147). -/
def execJpV0 (nnn : Addr) (s : State) : Host.Outcome State Fault Refusal :=
  .next (s.setPc (indexedTarget nnn (s.getV 0x0#4)))

/-- NOP: nothing beyond the step's pc + 2 and tick, whichever unpopulated slot `_w` lies in (R108). -/
def execNop (_w : Word) (s : State) : Host.Outcome State Fault Refusal := .next s

end Sys2Proof.Machine
end

