-- ==== Sys2Proof/Machine/Display.lean ====
section
/-!
DEFINITION. The display instructions: CLS and DRW (41_display.md).
-/

namespace Sys2Proof.Machine

/-- CLS (R120). -/
def execCls (s : State) : Host.Outcome State Fault Refusal := .next s.clearPixels

/-- DRW Vx, Vy, n: coordinates and sprite bytes are read before VF is reset (R121, D5). -/
def execDrw (x y n : Nibble) (s : State) : Host.Outcome State Fault Refusal :=
  match s.readBytes s.index.toNat n.toNat with
  | .error a => .next (s.raise .memRead a)
  | .ok rows => .next ((s.setV vf 0#8).drawRows (startCol (s.getV x)) (startRow (s.getV y)) 0 rows)

end Sys2Proof.Machine
end

