-- ==== Sys2Proof/Machine/IndexMemory.lean ====
section
/-!
DEFINITION. The index-register and memory instructions (44_index_memory.md).
-/

namespace Sys2Proof.Machine

/-- LD I, nnn (R210). -/
def execLdI (nnn : Addr) (s : State) : Host.Outcome State Fault Refusal := .next (s.setIndex (zextAddr nnn))

/-- ADD I, Vx: mod 65536, no flag (R211, D11). -/
def execAddI (x : Nibble) (s : State) : Host.Outcome State Fault Refusal :=
  .next (s.setIndex (s.index + zextByte (s.getV x)))

/-- LD F, Vx (R212). -/
def execLdF (x : Nibble) (s : State) : Host.Outcome State Fault Refusal :=
  .next (s.setIndex (glyphAddr (s.getV x)))

/-- LD B, Vx (R213). -/
def execLdB (x : Nibble) (s : State) : Host.Outcome State Fault Refusal :=
  match s.writeBytes s.index.toNat (decimalDigits (s.getV x)) with
  | .error a => .next (s.raise .memWrite a)
  | .ok t => .next t

/-- LD [I], Vx: I is unchanged (R214, D12). -/
def execLdMemVx (x : Nibble) (s : State) : Host.Outcome State Fault Refusal :=
  match s.writeBytes s.index.toNat (s.regsUpTo x) with
  | .error a => .next (s.raise .memWrite a)
  | .ok t => .next t

/-- LD Vx, [I]: I is unchanged (R215, D12). -/
def execLdVxMem (x : Nibble) (s : State) : Host.Outcome State Fault Refusal :=
  match s.readBytes s.index.toNat (x.toNat + 1) with
  | .error a => .next (s.raise .memRead a)
  | .ok bytes => .next (s.loadRegs 0 bytes)

end Sys2Proof.Machine
end

