-- ==== Sys2Proof/Machine/KeypadTimers.lean ====
section
/-!
DEFINITION. The keypad and timer instructions (45_keypad_timers.md).
-/

namespace Sys2Proof.Machine

/-- SKP Vx: the key number is V[x] (R240, D8). -/
def execSkp (x : Nibble) (s : State) : Host.Outcome State Fault Refusal :=
  match s.keySlot (s.getV x) with
  | .error k => .next (s.raise .keyIndex k)
  | .ok pressed => .next (s.skipIf pressed)

/-- SKNP Vx (R241, D8). -/
def execSknp (x : Nibble) (s : State) : Host.Outcome State Fault Refusal :=
  match s.keySlot (s.getV x) with
  | .error k => .next (s.raise .keyIndex k)
  | .ok pressed => .next (s.skipIf (!pressed))

/-- LD Vx, DT (R242). -/
def execLdVxDt (x : Nibble) (s : State) : Host.Outcome State Fault Refusal := .next (s.setV x s.dt)

/-- LD Vx, K: the lowest pressed key, or the same instruction again in the next step (R243). -/
def execLdVxK (x : Nibble) (s : State) : Host.Outcome State Fault Refusal :=
  match s.firstPressed with
  | some k => .next (s.setV x (BitVec.ofNat 8 k))
  | none => .next s.repeatInstr

/-- LD DT, Vx (R244). -/
def execLdDtVx (x : Nibble) (s : State) : Host.Outcome State Fault Refusal := .next (s.setDt (s.getV x))

/-- LD ST, Vx (R245). -/
def execLdStVx (x : Nibble) (s : State) : Host.Outcome State Fault Refusal := .next (s.setSt (s.getV x))

end Sys2Proof.Machine
end

