-- ==== Sys2Proof/Machine/Step.lean ====
section
/-!
DEFINITION. One call of `step()` (40_cycle.md R111), and the placing of one instruction where the next step fetches.
-/

namespace Sys2Proof.Machine

/-- The step: stuck on a fault; fetch; latch and advance; decode and execute; tick, or undo on a fault (R101–R107). -/
def step (s : State) : Host.Outcome State Fault Refusal :=
  match s.fault with
  | some r => .fault (.stuck r)
  | none =>
    match s.fetchWord with
    | .error a => .next (s.takeFault .fetch s.pc none a)
    | .ok w =>
      match exec (decodeWord w) (s.latch w) with
      | .next t => .next (s.finish t)
      | .fault f => .fault f
      | .refused r => .refused r

/-- The state with the table's word `w` stored, most significant byte first, at pc and pc + 1, where the next step
fetches. Where no fetch is possible (pc ≥ 0xFFF) there is no such place and nothing changes. Log entry 5. -/
def State.withFetchWord (s : State) (nbits w : Nat) : State :=
  match firstOutOfRange s.pc.toNat 2 with
  | some _ => s
  | none => { s with mem := Memory.writeList s.mem s.pc.toNat [hiByte (tableWord nbits w), loByte (tableWord nbits w)] }

end Sys2Proof.Machine
end

