-- ==== Sys2Proof/Machine/Boot.lean ====
section
/-!
DEFINITION. What the host does between steps (00_scope.md R5, 70_reset_and_hazards.md R302, R303): load an image,
write the keypad, read what it may read, and the one boot order the spec admits. `initialize()` is
`State.hostInitialize` in Machine/Ops.lean.
-/

namespace Sys2Proof.Machine

/-- What `load` reports to the host (R302). -/
inductive LoadReport where
  | loaded
  /-- "ROM too large": more than ROM_MAX bytes. It sets no fault in the core. -/
  | romTooLarge
  deriving DecidableEq, Repr

/-- `load(bytes)`: the image to ENTRY and up, or a report and the memory unchanged (R302, C2). -/
def State.load (s : State) (image : List Byte) : LoadReport × State :=
  if image.length > Config.romMax then (.romTooLarge, s)
  else (.loaded, { s with mem := Memory.writeList s.mem Config.entry image })

/-- The host writes the keypad snapshot of the next step (R36, R109). -/
def State.setKeys (s : State) (keys : Vector Bool 16) : State := { s with key := keys }

/-- What the host may read after a step (R110, R276). -/
structure HostView where
  fb : Vector (Vector Bool 64) 32
  dt : Byte
  st : Byte
  pc : Word
  fault : Option FaultRecord
  deriving DecidableEq, Repr

/-- The host's view of a state (R110, R276). -/
def State.hostView (s : State) : HostView := ⟨s.fb, s.dt, s.st, s.pc, s.fault⟩

/-- `initialize()` and then `load`, the start of every run (R303). -/
def State.boot (s : State) (image : List Byte) : LoadReport × State := s.hostInitialize.load image

/-- The run after the boot: for each snapshot, the host writes the keypad and calls `step()` (R303, R309). No other
host action falls in a run. Log entry 4. -/
def State.session (s : State) : List (Vector Bool 16) → Host.Outcome State Fault Refusal
  | [] => .next s
  | keys :: rest =>
    match step (s.setKeys keys) with
    | .next t => t.session rest
    | .fault f => .fault f
    | .refused r => .refused r

end Sys2Proof.Machine
end

