-- ==== Sys2Proof/Safety.lean ====
section
/-!
DEFINITION. The terms claims are stated in: the single parts of the state and what it is to change only some of them,
which part each instruction may write, where each instruction leaves pc, what a fault record must look like, and the
invariant that every step keeps.
-/

namespace Sys2Proof

open Machine

/-! ## Parts of the state and frames -/

/-- One part of the state that can change on its own: a cell of each field of R20. -/
inductive Part where
  | reg (r : Nibble)
  | byte (a : Nat)
  | index
  | pc
  | stackEntry (k : Fin 16)
  | sp
  | dt
  | st
  | keySlot (k : Fin 16)
  | pixel (row : Fin 32) (col : Fin 64)
  | opcode
  | fault
  | draws
  deriving DecidableEq, Repr

/-- The part holds the same value in both states; a byte of memory is compared by the model's read of it. -/
def Part.SameIn (s t : State) : Part → Prop
  | .reg r => t.getV r = s.getV r
  | .byte a => Memory.read t.mem a = Memory.read s.mem a
  | .index => t.index = s.index
  | .pc => t.pc = s.pc
  | .stackEntry k => t.stack[k.val] = s.stack[k.val]
  | .sp => t.sp = s.sp
  | .dt => t.dt = s.dt
  | .st => t.st = s.st
  | .keySlot k => t.key[k.val] = s.key[k.val]
  | .pixel row col => t.pixel row col = s.pixel row col
  | .opcode => t.opcode = s.opcode
  | .fault => t.fault = s.fault
  | .draws => t.draws = s.draws

/-- From `s` to `t` only the parts in `may` may have changed: the frame of whatever led there. -/
def ChangesOnly (s t : State) (may : Part → Prop) : Prop := ∀ p, ¬ may p → p.SameIn s t

/-! ## Encodings -/

/-- Every word with these bits under the mask decodes to the instruction that `build` makes of its fields (R77). -/
def Selects (pattern mask : Word) (build : Word → Instr) : Prop :=
  ∀ w : Word, w &&& mask = pattern → decodeWord w = build w

/-! ## Running -/

/-- The word at pc: pc and pc + 1 in range, and `w`'s bytes there, the most significant first (R55, R102). -/
abbrev WordAtPc (s : State) (w : Word) : Prop :=
  s.pc.toNat + 1 < Config.memSize ∧
    w = wordOfBytes (Memory.read s.mem s.pc.toNat) (Memory.read s.mem (s.pc.toNat + 1))

/-- A step that fetches `w`: no fault, and `w` at pc (R101, R102). -/
def Fetches (s : State) (w : Word) : Prop := s.fault = none ∧ WordAtPc s w

/-- The state a handler leaves that raises a fault in `s`: only the record, which names the instruction's address
A = pc − 2 and the latched word (R107, R273). -/
def raised (s : State) (cause : FaultCause) (info : Nat) : State :=
  { s with fault := some ⟨cause, s.pc - 2#16, some s.opcode, info⟩ }

/-- The lowest of the addresses base, base + 1, … that is not below 4096 (R54). -/
def lowestOutside (base : Nat) : Nat := if base < Config.memSize then Config.memSize else base

/-- R30's table: pc after a completed step of instruction `i` from `s`, where `s.pc` is the instruction's address A. -/
def pcAfterStep (s : State) : Instr → Word
  | .jp nnn | .call nnn => BitVec.ofNat 16 nnn.toNat
  | .ret => s.stack[s.sp.val - 1]?.getD 0#16
  | .jpV0 nnn => BitVec.ofNat 16 (nnn.toNat + (s.getV 0#4).toNat)
  | .seImm x kk => if s.getV x = kk then s.pc + 4#16 else s.pc + 2#16
  | .sneImm x kk => if s.getV x ≠ kk then s.pc + 4#16 else s.pc + 2#16
  | .seReg x y => if s.getV x = s.getV y then s.pc + 4#16 else s.pc + 2#16
  | .sneReg x y => if s.getV x ≠ s.getV y then s.pc + 4#16 else s.pc + 2#16
  | .skp x => if s.key[(s.getV x).toNat]? = some true then s.pc + 4#16 else s.pc + 2#16
  | .sknp x => if s.key[(s.getV x).toNat]? = some false then s.pc + 4#16 else s.pc + 2#16
  | .ldVxK _ => if ∃ k : Fin 16, s.key[k.val] = true then s.pc + 2#16 else s.pc
  | .cls | .ldImm _ _ | .addImm _ _ | .ldReg _ _ | .orReg _ _ | .andReg _ _ | .xorReg _ _ | .addReg _ _
  | .subReg _ _ | .shr _ | .subnReg _ _ | .shl _ | .ldI _ | .rnd _ _ | .drw _ _ _ | .ldVxDt _ | .ldDtVx _
  | .ldStVx _ | .addI _ | .ldF _ | .ldB _ | .ldMemVx _ | .ldVxMem _ | .nop _ => s.pc + 2#16

/-! ## Who may write what -/

/-- R22's table: the general registers an instruction writes. -/
def Writes (i : Instr) (r : Nibble) : Prop :=
  match i with
  | .ldImm x _ | .addImm x _ | .ldReg x _ | .orReg x _ | .andReg x _ | .xorReg x _ | .rnd x _ => r = x
  | .addReg x _ | .subReg x _ | .shr x | .subnReg x _ | .shl x => r = vf ∨ r = x
  | .drw _ _ _ => r = vf
  | .ldVxDt x | .ldVxK x => r = x
  | .ldVxMem x => r.toNat ≤ x.toNat
  | .cls | .ret | .jp _ | .call _ | .seImm _ _ | .sneImm _ _ | .seReg _ _ | .sneReg _ _ | .ldI _ | .jpV0 _ | .skp _
  | .sknp _ | .ldDtVx _ | .ldStVx _ | .addI _ | .ldF _ | .ldB _ | .ldMemVx _ | .nop _ => False

/-- The parts other than the general registers that an instruction's handler may write: the "written by" columns and
sentences of R27, R31, R33–R37 and R50, and the fault record for the instructions of R271. -/
def WritesPart (i : Instr) (s : State) : Part → Prop
  | .reg r => Writes i r
  | .byte a => match i with
    | .ldB _ => s.index.toNat ≤ a ∧ a < s.index.toNat + 3
    | .ldMemVx x => s.index.toNat ≤ a ∧ a ≤ s.index.toNat + x.toNat
    | _ => False
  | .index => match i with
    | .ldI _ | .addI _ | .ldF _ => True
    | _ => False
  | .pc => match i with
    | .ret | .jp _ | .call _ | .jpV0 _ | .seImm _ _ | .sneImm _ _ | .seReg _ _ | .sneReg _ _ | .skp _ | .sknp _
    | .ldVxK _ => True
    | _ => False
  | .stackEntry k => match i with
    | .call _ => k.val = s.sp.val
    | _ => False
  | .sp => match i with
    | .call _ | .ret => True
    | _ => False
  | .dt => match i with
    | .ldDtVx _ => True
    | _ => False
  | .st => match i with
    | .ldStVx _ => True
    | _ => False
  | .keySlot _ => False
  | .pixel _ _ => match i with
    | .cls | .drw _ _ _ => True
    | _ => False
  | .opcode => False
  | .fault => match i with
    | .ret | .call _ | .drw _ _ _ | .ldB _ | .ldMemVx _ | .ldVxMem _ | .skp _ | .sknp _ => True
    | _ => False
  | .draws => match i with
    | .rnd _ _ => True
    | _ => False

/-! ## The invariant -/

/-- R271's rows for the causes a handler raises: the instructions of "raised by", the condition of "when" in the state
before the step, and exactly the value of "info recorded". -/
def RaisedWith (s : State) : FaultCause → Instr → Nat → Prop
  | .memRead, .drw _ _ n, info =>
    n.toNat ≠ 0 ∧ Config.memSize < s.index.toNat + n.toNat ∧ info = lowestOutside s.index.toNat
  | .memRead, .ldVxMem x, info => Config.memSize ≤ s.index.toNat + x.toNat ∧ info = lowestOutside s.index.toNat
  | .memWrite, .ldB _, info => Config.memSize ≤ s.index.toNat + 2 ∧ info = lowestOutside s.index.toNat
  | .memWrite, .ldMemVx x, info => Config.memSize ≤ s.index.toNat + x.toNat ∧ info = lowestOutside s.index.toNat
  | .stackOverflow, .call _, info => s.sp.val = 16 ∧ info = 16
  | .stackUnderflow, .ret, info => s.sp.val = 0 ∧ info = 0
  | .keyIndex, .skp x, info | .keyIndex, .sknp x, info => 0xF < (s.getV x).toNat ∧ info = (s.getV x).toNat
  | _, _, _ => False

/-- What the spec says of a fault record, in terms of the state the faulting step began in, which the step left but for
the record (R271, R273): it names pc; a FetchFault has no word, and pc or pc + 1 is its first address out of range; any
other fault names the word at pc, and its cause and info are those of R271's row for that word's instruction. -/
def RecordOk (s : State) (r : FaultRecord) : Prop :=
  r.addr = s.pc ∧
    match r.word with
    | none => r.cause = .fetch ∧ Config.memSize ≤ s.pc.toNat + 1 ∧ r.info = lowestOutside s.pc.toNat
    | some w => WordAtPc s w ∧ RaisedWith s r.cause (decodeWord w) r.info

/-- The invariant of the machine: memory in its canonical form, and a recorded fault as the spec says of the state that
holds it (R50, R271, R273, R275). -/
def Inv (s : State) : Prop := Memory.wf s.mem = true ∧ ∀ r, s.fault = some r → RecordOk s r

end Sys2Proof
end

