-- ==== Sys2Proof/Certificates/Slice0/Obligations.lean ====
section
/-!
DEFINITION. The statements for the provers, from the numbered rules of spec/. In a handler (`exec`) pc already holds
A + 2, where A is the instruction's address; in a step `s.pc` is A itself.
-/

open Sys2Proof Sys2Proof.Machine

/-! ## Encoding and decoding -/

/-- Decoding the bytes of a well-formed instruction gives it back, with every field at every value, and leaves the
bytes after it. The words are the model's canonical ones (log entry 7). -/
def Obligations.DecodeOfEncodeIsTheInstruction : Prop :=
  ∀ (i : Instr) (rest : List Byte), i.WellFormed → decode (encode i ++ rest) = .ok (i, rest)

/-- R77: each of the 34 rows selects its instruction by match and mask, and no two rows overlap. -/
def Obligations.OpcodeRowsSelectTheirInstruction : Prop :=
  opcodeRows.length = 34 ∧
  (∀ r ∈ opcodeRows, ∀ w : Word, w &&& r.mask = r.pattern → decodeWord w = r.build w) ∧
  opcodeRows.Pairwise fun r q => ∀ w : Word, ¬ (w &&& r.mask = r.pattern ∧ w &&& q.mask = q.pattern)

/-- R78: exactly the words of the table of unpopulated slots decode to the no-op. -/
def Obligations.UnpopulatedSlotsAreTheNoOps : Prop :=
  ∀ w : Word, (∃ v, decodeWord w = .nop v) ↔ unpopulated w = true

/-- R80: every word decodes to the instruction of one of R77's rows, or to the no-op of R78. No word is refused. -/
def Obligations.EveryWordDecodes : Prop :=
  ∀ w : Word, (decodeWord w).WellFormed ∧
    ((∃ r ∈ opcodeRows, w &&& r.mask = r.pattern ∧ decodeWord w = r.build w) ∨
      (unpopulated w = true ∧ decodeWord w = .nop w))

/-- R79's aliases (an inference the spec marks [derived]): the bits the dispatch does not look at may hold anything. -/
def Obligations.AliasWordsExecuteTheirInstruction : Prop :=
  (∀ a b : Nibble, decodeWord (packXYN 0x0#4 a b 0x0#4) = .cls) ∧
  (∀ a b : Nibble, decodeWord (packXYN 0x0#4 a b 0xE#4) = .ret) ∧
  (∀ x y n : Nibble, decodeWord (packXYN 0x5#4 x y n) = .seReg x y) ∧
  (∀ x y n : Nibble, decodeWord (packXYN 0x9#4 x y n) = .sneReg x y) ∧
  (∀ x b : Nibble, decodeWord (packXYN 0xE#4 x b 0xE#4) = .skp x) ∧
  (∀ x b : Nibble, decodeWord (packXYN 0xE#4 x b 0x1#4) = .sknp x)

/-- R72: the fields are the shifted and masked word. -/
def Obligations.FieldsAreShiftedAndMasked : Prop :=
  ∀ w : Word,
    (opField w).toNat = (w.toNat >>> 12) &&& 0xF ∧ (xField w).toNat = (w.toNat >>> 8) &&& 0xF ∧
    (yField w).toNat = (w.toNat >>> 4) &&& 0xF ∧ (nField w).toNat = w.toNat &&& 0xF ∧
    (kkField w).toNat = w.toNat &&& 0xFF ∧ (nnnField w).toNat = w.toNat &&& 0xFFF

/-- Words of the rules' examples, one or more of each family, as the spec writes them. -/
def Obligations.ExampleWordsDecode : Prop :=
  decodeWord 0x00E0#16 = .cls ∧ decodeWord 0x00EE#16 = .ret ∧ decodeWord 0x1234#16 = .jp 0x234#12 ∧
  decodeWord 0x3342#16 = .seImm 3#4 0x42#8 ∧ decodeWord 0x512F#16 = .seReg 1#4 2#4 ∧
  decodeWord 0x8125#16 = .subReg 1#4 2#4 ∧ decodeWord 0x8106#16 = .shr 1#4 ∧
  decodeWord 0xC30F#16 = .rnd 3#4 0x0F#8 ∧ decodeWord 0xD011#16 = .drw 0#4 1#4 1#4 ∧
  decodeWord 0xE50E#16 = .skp 5#4 ∧ decodeWord 0xF255#16 = .ldMemVx 2#4 ∧ decodeWord 0x8008#16 = .nop 0x8008#16

/-! ## The step -/

/-- R103, R104, R105: a step whose bytes at pc decode to `i` runs `i`'s handler once, on the state with the word
latched and pc advanced by 2; then the timers tick, or, if the handler raised a fault, everything else is undone. -/
def Obligations.StepRunsTheDecodedInstruction : Prop :=
  ∀ (s : State) (i : Instr) (hi lo : Byte), s.fault = none → s.pc.toNat + 1 < 4096 →
    hi = Memory.read s.mem s.pc.toNat → lo = Memory.read s.mem (s.pc.toNat + 1) →
    decode [hi, lo] = .ok (i, []) →
    step s = match exec i { s with opcode := wordOfBytes hi lo, pc := s.pc + 2#16 } with
      | .next t => .next (match t.fault with
        | none => { t with dt := if t.dt = 0#8 then 0#8 else t.dt - 1#8, st := if t.st = 0#8 then 0#8 else t.st - 1#8 }
        | some r => { s with fault := some r })
      | .fault f => .fault f
      | .refused r => .refused r

/-- R55, R102: the fetch is big-endian and latched; pc = 0xFFF and pc ≥ 0x1000 raise a FetchFault with the first
address out of range, and nothing else happens. -/
def Obligations.FetchIsBigEndianOrFaults : Prop :=
  ∀ s : State, s.fault = none →
    (s.pc.toNat + 1 < 4096 → ∃ w, s.fetchWord = .ok w ∧
      w.toNat = 256 * (Memory.read s.mem s.pc.toNat).toNat + (Memory.read s.mem (s.pc.toNat + 1)).toNat ∧
      ∀ t, step s = .next t → t.fault = none → t.opcode = w) ∧
    (s.pc.toNat = 0xFFF → step s = .next { s with fault := some ⟨.fetch, s.pc, none, 0x1000⟩ }) ∧
    (0x1000 ≤ s.pc.toNat → step s = .next { s with fault := some ⟨.fetch, s.pc, none, s.pc.toNat⟩ })

/-- R101: a faulted core stops at its next step, and `initialize()` clears the fault. -/
def Obligations.FaultedCoreIsStuck : Prop :=
  ∀ (s : State) (r : FaultRecord), s.fault = some r → step s = .fault (.stuck r) ∧ s.hostInitialize.fault = none

/-- R107, R275: a step that raises a fault changes nothing but the fault field, and pc still points at the faulting
instruction, which the record names (the spec's decision D9). -/
def Obligations.FaultingStepChangesOnlyTheRecord : Prop :=
  ∀ (s t : State) (r : FaultRecord), step s = .next t → t.fault = some r →
    t = { s with fault := some r } ∧ r.addr = s.pc

/-- The records of R271 and R273, and R274's order. A step from s records a fault that names s's pc: a FetchFault,
with no word and the first address out of range, exactly where nothing can be fetched, so no handler runs; or the fetched
word, with a cause that R271's row allows for its instruction, under that row's condition in s, and with exactly that
row's info: the lowest address out of range, sp, or the value of Vx. The codes are 1 to 6. -/
def Obligations.FaultRecordsAreAsTheSpecSays : Prop :=
  (∀ (s t : State) (r : FaultRecord), step s = .next t → t.fault = some r → RecordOk s r) ∧
  FaultCause.fetch.code = 1 ∧ FaultCause.memRead.code = 2 ∧ FaultCause.memWrite.code = 3 ∧
  FaultCause.stackOverflow.code = 4 ∧ FaultCause.stackUnderflow.code = 5 ∧ FaultCause.keyIndex.code = 6

/-- A core without a fault always takes a next state: no word is refused, and every fault is one the spec records. -/
def Obligations.StepAnswersUnlessStuck : Prop :=
  ∀ s : State, (∃ t, step s = .next t) ↔ s.fault = none

/-- R106: after a handler completes, both timers have counted down by exactly 1 unless 0, one just written too. -/
def Obligations.TimersTickOncePerCompletedStep : Prop :=
  ∀ (s t : State) (w : Word), Fetches s w → step s = .next t → t.fault = none →
    t.dt.toNat = (match decodeWord w with | .ldDtVx x => (s.getV x).toNat | _ => s.dt.toNat) - 1 ∧
    t.st.toNat = (match decodeWord w with | .ldStVx x => (s.getV x).toNat | _ => s.st.toNat) - 1

/-- R30: where each instruction leaves pc, even or odd; a call pushes A + 2. -/
def Obligations.PcAfterEveryInstruction : Prop :=
  ∀ (s t : State) (w : Word), Fetches s w → step s = .next t → t.fault = none →
    t.pc = pcAfterStep s (decodeWord w) ∧
    ∀ nnn, decodeWord w = .call nnn → t.stack[s.sp.val]? = some (s.pc + 2#16)

/-- R22: only the instructions of the table write a general register, only the ones it names, and Fx0A only when a
key is pressed. -/
def Obligations.OnlyTheTableWritesRegisters : Prop :=
  ∀ (i : Instr) (s t : State) (r : Nibble), exec i s = .next t → t.getV r ≠ s.getV r →
    Writes i r ∧ ∀ x, i = .ldVxK x → ∃ k : Fin 16, s.key[k.val] = true

/-- The "written by" sentences of R27, R31, R33–R37, R50 and R271 together: every instruction's whole frame. -/
def Obligations.EveryInstructionKeepsItsFrame : Prop :=
  ∀ (i : Instr) (s t : State), exec i s = .next t → ChangesOnly s t (WritesPart i s)

/-- R37: a completed step leaves the word it fetched in the latch, and no instruction sees the latched word of an
earlier step: a completed step does not depend on it, and a faulting one leaves it as it was. -/
def Obligations.OpcodeLatchIsNeverSeen : Prop :=
  ∀ (s t : State) (w : Word), step s = .next t →
    (t.fault = none → Fetches s t.opcode ∧ step { s with opcode := w } = .next t) ∧
    (t.fault ≠ none → step { s with opcode := w } = .next { t with opcode := w })

/-- No instruction reads ST (a sentence of R34): two runs that differ in ST alone go on differing in ST alone. -/
def Obligations.SoundTimerIsNeverRead : Prop :=
  ∀ (s t : State) (b : Byte), step s = .next t → ∃ b', step { s with st := b } = .next { t with st := b' }

/-- No instruction can observe a stack entry at or above sp (a sentence of R31): states that agree on everything else
step to states that agree on everything else. -/
def Obligations.DeadStackEntriesAreNeverSeen : Prop :=
  ∀ (s t : State) (stack : Vector Word 16), (∀ k : Fin 16, k.val < s.sp.val → stack[k.val] = s.stack[k.val]) →
    step s = .next t → ∃ stack' : Vector Word 16,
      (∀ k : Fin 16, k.val < t.sp.val → stack'[k.val] = t.stack[k.val]) ∧
      step { s with stack := stack } = .next { t with stack := stack' }

/-- Every step keeps the invariant, from every state that meets it: memory stays canonical, and a recorded fault
names pc and the word there, with the cause, condition and info of R271's row for that word in that state. -/
def Obligations.EveryStepKeepsTheInvariant : Prop :=
  ∀ s t : State, Inv s → step s = .next t → Inv t

/-- The reset state meets the invariant. -/
def Obligations.ResetMeetsTheInvariant : Prop := Inv State.reset

/-- Every state of every run of the spec's boot order (R303), whatever image is loaded and whatever keys are pressed,
meets the invariant. -/
def Obligations.EveryRunKeepsTheInvariant : Prop :=
  ∀ (s : State) (image : List Byte) (keys : List (Vector Bool 16)) (t : State),
    (s.boot image).2.session keys = .next t → Inv t

/-! ## Memory, reset and load -/

/-- R51, R52, R54: one byte read or written inside the address space is that byte; an access of several bytes checks
every address first, and reports the lowest bad one with nothing done. -/
def Obligations.MemoryAccessIsCheckedWhole : Prop :=
  (∀ (s : State) (a : Nat), a < 4096 → s.readBytes a 1 = .ok [Memory.read s.mem a]) ∧
  (∀ (s : State) (a : Nat), 4096 ≤ a → s.readBytes a 1 = .error a ∧ ∀ v, s.writeBytes a [v] = .error a) ∧
  (∀ (s : State) (a : Nat) (v : Byte), Memory.wf s.mem = true → a < 4096 → ∃ t, s.writeBytes a [v] = .ok t ∧
    Memory.read t.mem a = v ∧ Memory.wf t.mem = true ∧ ChangesOnly s t (fun p => p = .byte a)) ∧
  (∀ (s : State) (base n a : Nat), base ≤ a → a < base + n → 4096 ≤ a → (∀ b, base ≤ b → b < a → b < 4096) →
    s.readBytes base n = .error a ∧ ∀ bs : List Byte, bs.length = n → s.writeBytes base bs = .error a)

/-- R39: every field after `initialize()`; FONT_BASE and FONT_DATA are left open. -/
def Obligations.ResetStateIsTheTable : Prop :=
  (∀ r, State.reset.getV r = 0#8) ∧
  (∀ j : Fin 80, Memory.read State.reset.mem (Config.fontBase.val + j.val) = Config.fontData[j.val]) ∧
  (∀ a, a < 4096 → (a < Config.fontBase.val ∨ Config.fontBase.val + 80 ≤ a) → Memory.read State.reset.mem a = 0#8) ∧
  State.reset.index = 0#16 ∧ State.reset.pc = 0x200#16 ∧ (∀ k : Fin 16, State.reset.stack[k.val] = 0#16) ∧
  State.reset.sp = 0 ∧ State.reset.dt = 0#8 ∧ State.reset.st = 0#8 ∧
  (∀ k : Fin 16, State.reset.key[k.val] = false) ∧ (∀ row col, State.reset.pixel row col = false) ∧
  State.reset.opcode = 0#16 ∧ State.reset.fault = none

/-- `initialize()` gives the reset state from any state, faulted or not; the model's own count of draws goes on
(log entry 3, the model's choice). -/
def Obligations.InitializeResetsAnyState : Prop :=
  ∀ s : State, s.hostInitialize = { State.reset with draws := s.draws } ∧ ∀ image, (s.boot image).2.fault = none

/-- R302: an image of at most 3584 bytes is stored from 0x200 on and nothing else changes; a longer one is reported
and changes nothing, the fault field included. -/
def Obligations.LoadStoresTheImageOrNothing : Prop :=
  ∀ (s : State) (image : List Byte), Memory.wf s.mem = true →
    (image.length ≤ 3584 → ∃ t, s.load image = (.loaded, t) ∧
      (∀ i : Fin image.length, Memory.read t.mem (0x200 + i.val) = image[i.val]) ∧
      ChangesOnly s t (fun p => ∃ a, p = .byte a ∧ 0x200 ≤ a ∧ a < 0x200 + image.length)) ∧
    (3584 < image.length → s.load image = (.romTooLarge, s))

/-! ## Display -/

/-- R120. -/
def Obligations.ClsClearsEveryPixel : Prop :=
  Selects 0x0000#16 0xF00F#16 (fun _ => .cls) ∧
  ∀ s : State, ∃ t, exec .cls s = .next t ∧ (∀ row col, t.pixel row col = false) ∧
    ChangesOnly s t (fun p => ∃ row col, p = .pixel row col)

/-- R121: DRW completes when every sprite byte is in memory. Each sprite bit is XORed into its pixel, at wrapped
coordinates; VF is 1 exactly when a set bit fell on a set pixel; the coordinates and bytes are those before VF's reset
(D5). Otherwise it raises a MemReadFault with the lowest bad address. -/
def Obligations.DrwXorsTheSprite : Prop :=
  Selects 0xD000#16 0xF000#16 (fun w => .drw (xField w) (yField w) (nField w)) ∧
  ∀ (x y n : Nibble) (s : State),
    let bit := fun r c : Nat => (Memory.read s.mem (s.index.toNat + r)).getLsbD (7 - c)
    let row := fun r : Nat => Fin.ofNat 32 ((s.getV y).toNat % 32 + r)
    let col := fun c : Nat => Fin.ofNat 64 ((s.getV x).toNat % 64 + c)
    ((n.toNat = 0 ∨ s.index.toNat + n.toNat ≤ 4096) → ∃ t, exec (.drw x y n) s = .next t ∧
      (∀ r c : Nat, r < n.toNat → c < 8 → t.pixel (row r) (col c) = (s.pixel (row r) (col c) ^^ bit r c)) ∧
      ((∃ r c : Nat, r < n.toNat ∧ c < 8 ∧ bit r c = true ∧ s.pixel (row r) (col c) = true) → t.getV vf = 1#8) ∧
      ((¬ ∃ r c : Nat, r < n.toNat ∧ c < 8 ∧ bit r c = true ∧ s.pixel (row r) (col c) = true) → t.getV vf = 0#8) ∧
      ChangesOnly s t (fun p => p = .reg vf ∨
        ∃ r c : Nat, r < n.toNat ∧ c < 8 ∧ bit r c = true ∧ p = .pixel (row r) (col c))) ∧
    ((n.toNat ≠ 0 ∧ 4096 < s.index.toNat + n.toNat) →
      exec (.drw x y n) s = .next (raised s .memRead (lowestOutside s.index.toNat)))

/-- R122 (an inference the spec marks [derived]): the same sprite drawn twice at the same place, with VF not a
coordinate, gives the framebuffer back, and the second draw's VF says whether a set bit fell on a pixel that was clear
before the first. -/
def Obligations.DrwTwiceRestoresTheFramebuffer : Prop :=
  ∀ (x y n : Nibble) (s : State), x ≠ vf → y ≠ vf → (n.toNat = 0 ∨ s.index.toNat + n.toNat ≤ 4096) →
    ∃ t u, exec (.drw x y n) s = .next t ∧ exec (.drw x y n) t = .next u ∧
      (∀ row col, u.pixel row col = s.pixel row col) ∧
      (u.getV vf = 1#8 ↔ ∃ r c : Nat, r < n.toNat ∧ c < 8 ∧
        (Memory.read s.mem (s.index.toNat + r)).getLsbD (7 - c) = true ∧
        s.pixel (Fin.ofNat 32 ((s.getV y).toNat % 32 + r)) (Fin.ofNat 64 ((s.getV x).toNat % 64 + c)) = false)

/-! ## Control flow -/

/-- R140: RET pops into pc, the entry keeping its value, or raises a StackUnderflowFault at sp = 0. -/
def Obligations.RetPopsThePc : Prop :=
  Selects 0x000E#16 0xF00F#16 (fun _ => .ret) ∧
  ∀ s : State,
    (s.sp.val ≠ 0 → ∃ t, exec .ret s = .next t ∧ t.sp.val = s.sp.val - 1 ∧ s.stack[s.sp.val - 1]? = some t.pc ∧
      ChangesOnly s t (fun p => p = .sp ∨ p = .pc)) ∧
    (s.sp.val = 0 → exec .ret s = .next (raised s .stackUnderflow 0))

/-- R141. -/
def Obligations.JpJumps : Prop :=
  Selects 0x1000#16 0xF000#16 (fun w => .jp (nnnField w)) ∧
  ∀ (nnn : Addr) (s : State), ∃ t, exec (.jp nnn) s = .next t ∧ t.pc.toNat = nnn.toNat ∧
    ChangesOnly s t (fun p => p = .pc)

/-- R142: CALL pushes pc = A + 2 at `stack[sp]` and jumps, or raises a StackOverflowFault at sp = 16. -/
def Obligations.CallPushesAndJumps : Prop :=
  Selects 0x2000#16 0xF000#16 (fun w => .call (nnnField w)) ∧
  ∀ (nnn : Addr) (s : State),
    (s.sp.val ≠ 16 → ∃ t, exec (.call nnn) s = .next t ∧ t.stack[s.sp.val]? = some s.pc ∧
      t.sp.val = s.sp.val + 1 ∧ t.pc.toNat = nnn.toNat ∧
      ChangesOnly s t (fun p => p = .sp ∨ p = .pc ∨ ∃ k : Fin 16, k.val = s.sp.val ∧ p = .stackEntry k)) ∧
    (s.sp.val = 16 → exec (.call nnn) s = .next (raised s .stackOverflow 16))

/-- A step of 2nnn and a step of the 00EE at its target (alias words included) come back behind the call: pc is A + 2
and sp is as before. -/
def Obligations.ReturnComesBackBehindTheCall : Prop :=
  ∀ (s : State) (w : Word) (nnn : Addr), Fetches s w → decodeWord w = .call nnn → s.sp.val < 16 →
    nnn.toNat + 1 < 4096 →
    decodeWord (wordOfBytes (Memory.read s.mem nnn.toNat) (Memory.read s.mem (nnn.toNat + 1))) = .ret →
    ∃ t u, step s = .next t ∧ t.pc.toNat = nnn.toNat ∧ step t = .next u ∧ u.pc = s.pc + 2#16 ∧ u.sp = s.sp ∧
      u.fault = none

/-- R143, R144: SE and SNE with an immediate add 2 to pc, mod 65536, exactly when the condition holds. -/
def Obligations.ImmediateSkips : Prop :=
  Selects 0x3000#16 0xF000#16 (fun w => .seImm (xField w) (kkField w)) ∧
  Selects 0x4000#16 0xF000#16 (fun w => .sneImm (xField w) (kkField w)) ∧
  ∀ (x : Nibble) (kk : Byte) (s : State),
    (∃ t, exec (.seImm x kk) s = .next t ∧
      t.pc.toNat = (if s.getV x = kk then (s.pc.toNat + 2) % 65536 else s.pc.toNat) ∧
      ChangesOnly s t (fun p => p = .pc)) ∧
    (∃ t, exec (.sneImm x kk) s = .next t ∧
      t.pc.toNat = (if s.getV x = kk then s.pc.toNat else (s.pc.toNat + 2) % 65536) ∧
      ChangesOnly s t (fun p => p = .pc))

/-- R145, R146: SE and SNE with two registers, for every low nibble of the word. -/
def Obligations.RegisterSkips : Prop :=
  Selects 0x5000#16 0xF000#16 (fun w => .seReg (xField w) (yField w)) ∧
  Selects 0x9000#16 0xF000#16 (fun w => .sneReg (xField w) (yField w)) ∧
  ∀ (x y : Nibble) (s : State),
    (∃ t, exec (.seReg x y) s = .next t ∧
      t.pc.toNat = (if s.getV x = s.getV y then (s.pc.toNat + 2) % 65536 else s.pc.toNat) ∧
      ChangesOnly s t (fun p => p = .pc)) ∧
    (∃ t, exec (.sneReg x y) s = .next t ∧
      t.pc.toNat = (if s.getV x = s.getV y then s.pc.toNat else (s.pc.toNat + 2) % 65536) ∧
      ChangesOnly s t (fun p => p = .pc))

/-- R147: JP V0 adds V0, never Vx, without wrapping. -/
def Obligations.JpV0AddsV0 : Prop :=
  Selects 0xB000#16 0xF000#16 (fun w => .jpV0 (nnnField w)) ∧
  ∀ (nnn : Addr) (s : State), ∃ t, exec (.jpV0 nnn) s = .next t ∧
    t.pc.toNat = nnn.toNat + (s.getV 0#4).toNat ∧ ChangesOnly s t (fun p => p = .pc)

/-- R108: NOP, in every unpopulated slot, does nothing, so its step only advances pc by 2, latches the word and ticks
the timers. -/
def Obligations.NopOnlyAdvances : Prop :=
  (∀ w : Word, unpopulated w = true → decodeWord w = .nop w) ∧
  (∀ (w : Word) (s : State), exec (.nop w) s = .next s) ∧
  ∀ (s : State) (w : Word), Fetches s w → unpopulated w = true →
    ∃ t, step s = .next t ∧ t.pc.toNat = (s.pc.toNat + 2) % 65536 ∧ t.dt.toNat = s.dt.toNat - 1 ∧
      t.st.toNat = s.st.toNat - 1 ∧ t.opcode = w ∧
      ChangesOnly s t (fun p => p = .pc ∨ p = .dt ∨ p = .st ∨ p = .opcode)

/-! ## Registers and ALU -/

/-- R170: LD Vx, kk, VF being a destination like any other. -/
def Obligations.LdImmediate : Prop :=
  Selects 0x6000#16 0xF000#16 (fun w => .ldImm (xField w) (kkField w)) ∧
  ∀ (x : Nibble) (kk : Byte) (s : State), ∃ t, exec (.ldImm x kk) s = .next t ∧ t.getV x = kk ∧
    ChangesOnly s t (fun p => p = .reg x)

/-- R171: ADD Vx, kk is mod 256 and writes no flag (unless x = 0xF names VF as the destination). -/
def Obligations.AddImmediateWritesNoFlag : Prop :=
  Selects 0x7000#16 0xF000#16 (fun w => .addImm (xField w) (kkField w)) ∧
  ∀ (x : Nibble) (kk : Byte) (s : State), ∃ t, exec (.addImm x kk) s = .next t ∧
    (t.getV x).toNat = ((s.getV x).toNat + kk.toNat) % 256 ∧ ChangesOnly s t (fun p => p = .reg x)

/-- R172. -/
def Obligations.LdRegisterCopies : Prop :=
  Selects 0x8000#16 0xF00F#16 (fun w => .ldReg (xField w) (yField w)) ∧
  ∀ (x y : Nibble) (s : State), ∃ t, exec (.ldReg x y) s = .next t ∧ t.getV x = s.getV y ∧
    ChangesOnly s t (fun p => p = .reg x)

/-- R173, R174, R175: OR, AND, XOR, bit by bit, with no flag written. -/
def Obligations.LogicalOperations : Prop :=
  Selects 0x8001#16 0xF00F#16 (fun w => .orReg (xField w) (yField w)) ∧
  Selects 0x8002#16 0xF00F#16 (fun w => .andReg (xField w) (yField w)) ∧
  Selects 0x8003#16 0xF00F#16 (fun w => .xorReg (xField w) (yField w)) ∧
  ∀ (x y : Nibble) (s : State),
    (∃ t, exec (.orReg x y) s = .next t ∧
      (∀ i, (t.getV x).getLsbD i = ((s.getV x).getLsbD i || (s.getV y).getLsbD i)) ∧
      ChangesOnly s t (fun p => p = .reg x)) ∧
    (∃ t, exec (.andReg x y) s = .next t ∧
      (∀ i, (t.getV x).getLsbD i = ((s.getV x).getLsbD i && (s.getV y).getLsbD i)) ∧
      ChangesOnly s t (fun p => p = .reg x)) ∧
    (∃ t, exec (.xorReg x y) s = .next t ∧
      (∀ i, (t.getV x).getLsbD i = ((s.getV x).getLsbD i ^^ (s.getV y).getLsbD i)) ∧
      ChangesOnly s t (fun p => p = .reg x))

/-- R176: ADD Vx, Vy from the old operands; VF is the carry, unless x = 0xF, where the sum, written last, stands
(the spec's decision D3). -/
def Obligations.AddRegisterSetsCarry : Prop :=
  Selects 0x8004#16 0xF00F#16 (fun w => .addReg (xField w) (yField w)) ∧
  ∀ (x y : Nibble) (s : State), ∃ t, exec (.addReg x y) s = .next t ∧
    (t.getV x).toNat = ((s.getV x).toNat + (s.getV y).toNat) % 256 ∧
    (x ≠ vf → (t.getV vf).toNat = if (s.getV x).toNat + (s.getV y).toNat > 255 then 1 else 0) ∧
    ChangesOnly s t (fun p => p = .reg x ∨ p = .reg vf)

/-- R177: SUB Vx, Vy. VF is 1 for a strictly greater Vx, and the difference reads the registers after that write, in
each of the corner cases of VF as an operand (the spec's decision D2). -/
def Obligations.SubRegisterSetsNoBorrow : Prop :=
  Selects 0x8005#16 0xF00F#16 (fun w => .subReg (xField w) (yField w)) ∧
  ∀ (x y : Nibble) (s : State),
    let a := (s.getV x).toNat
    let b := (s.getV y).toNat
    let f := if a > b then 1 else 0
    ∃ t, exec (.subReg x y) s = .next t ∧
      (x ≠ vf → (t.getV vf).toNat = f) ∧
      (x ≠ vf → y ≠ vf → (t.getV x).toNat = (256 + a - b) % 256) ∧
      (x ≠ vf → y = vf → (t.getV x).toNat = (256 + a - f) % 256) ∧
      (x = vf → y ≠ vf → (t.getV vf).toNat = (256 + f - b) % 256) ∧
      (x = vf → y = vf → (t.getV vf).toNat = 0) ∧
      ChangesOnly s t (fun p => p = .reg x ∨ p = .reg vf)

/-- R178: SHR Vx, whatever field y holds; VF is bit 0, and with x = 0xF it ends 0 (the spec's decision D2). -/
def Obligations.ShrShiftsVxRight : Prop :=
  Selects 0x8006#16 0xF00F#16 (fun w => .shr (xField w)) ∧
  ∀ (x : Nibble) (s : State), ∃ t, exec (.shr x) s = .next t ∧
    (x ≠ vf → (t.getV x).toNat = (s.getV x).toNat / 2 ∧ (t.getV vf).toNat = (s.getV x).toNat % 2) ∧
    (x = vf → (t.getV vf).toNat = 0) ∧
    ChangesOnly s t (fun p => p = .reg x ∨ p = .reg vf)

/-- R179: SUBN Vx, Vy, with the corner cases of VF as an operand (the spec's decision D2). -/
def Obligations.SubnRegisterSetsNoBorrow : Prop :=
  Selects 0x8007#16 0xF00F#16 (fun w => .subnReg (xField w) (yField w)) ∧
  ∀ (x y : Nibble) (s : State),
    let a := (s.getV x).toNat
    let b := (s.getV y).toNat
    let f := if b > a then 1 else 0
    ∃ t, exec (.subnReg x y) s = .next t ∧
      (x ≠ vf → (t.getV vf).toNat = f) ∧
      (x ≠ vf → y ≠ vf → (t.getV x).toNat = (256 + b - a) % 256) ∧
      (x ≠ vf → y = vf → (t.getV x).toNat = (256 + f - a) % 256) ∧
      (x = vf → y ≠ vf → (t.getV vf).toNat = (256 + b - f) % 256) ∧
      (x = vf → y = vf → (t.getV vf).toNat = 0) ∧
      ChangesOnly s t (fun p => p = .reg x ∨ p = .reg vf)

/-- R180: SHL Vx, whatever field y holds; VF is bit 7 as 0 or 1, and with x = 0xF it ends 2 or 0 (the spec's
decisions D2, D4). -/
def Obligations.ShlShiftsVxLeft : Prop :=
  Selects 0x800E#16 0xF00F#16 (fun w => .shl (xField w)) ∧
  ∀ (x : Nibble) (s : State), ∃ t, exec (.shl x) s = .next t ∧
    (x ≠ vf → (t.getV x).toNat = (2 * (s.getV x).toNat) % 256 ∧ (t.getV vf).toNat = (s.getV x).toNat / 128) ∧
    (x = vf → (t.getV vf).toNat = 2 * ((s.getV x).toNat / 128)) ∧
    ChangesOnly s t (fun p => p = .reg x ∨ p = .reg vf)

/-- RND Vx, kk: the next free byte ANDed with kk, so no bit that kk lacks. The free byte and the model's count of
draws are log entry 3, the model's choice of form; the statement holds for every byte. -/
def Obligations.RndMasksAFreeByte : Prop :=
  Selects 0xC000#16 0xF000#16 (fun w => .rnd (xField w) (kkField w)) ∧
  ∀ (x : Nibble) (kk : Byte) (s : State), ∃ t, exec (.rnd x kk) s = .next t ∧
    t.getV x = Config.randomByte s.draws &&& kk ∧ t.getV x &&& ~~~kk = 0#8 ∧ t.draws = s.draws + 1 ∧
    ChangesOnly s t (fun p => p = .reg x ∨ p = .draws)

/-! ## Index register and memory -/

/-- R210. -/
def Obligations.LdIndexImmediate : Prop :=
  Selects 0xA000#16 0xF000#16 (fun w => .ldI (nnnField w)) ∧
  ∀ (nnn : Addr) (s : State), ∃ t, exec (.ldI nnn) s = .next t ∧ t.index.toNat = nnn.toNat ∧
    ChangesOnly s t (fun p => p = .index)

/-- R211: ADD I, Vx is mod 65536 and writes no flag (the spec's decisions D10, D11). -/
def Obligations.AddIndexWritesNoFlag : Prop :=
  Selects 0xF01E#16 0xF0FF#16 (fun w => .addI (xField w)) ∧
  ∀ (x : Nibble) (s : State), ∃ t, exec (.addI x) s = .next t ∧
    t.index.toNat = (s.index.toNat + (s.getV x).toNat) % 65536 ∧ ChangesOnly s t (fun p => p = .index)

/-- R212: LD F, Vx for every FONT_BASE, with Vx not reduced to a digit. -/
def Obligations.LdGlyphAddress : Prop :=
  Selects 0xF029#16 0xF0FF#16 (fun w => .ldF (xField w)) ∧
  ∀ (x : Nibble) (s : State), ∃ t, exec (.ldF x) s = .next t ∧
    t.index.toNat = (Config.fontBase.val + 5 * (s.getV x).toNat) % 65536 ∧ ChangesOnly s t (fun p => p = .index)

/-- R213: LD B, Vx stores the three digits at I, I + 1, I + 2 of a canonical memory, or raises a MemWriteFault with
the lowest bad address and stores nothing. -/
def Obligations.LdDecimalDigits : Prop :=
  Selects 0xF033#16 0xF0FF#16 (fun w => .ldB (xField w)) ∧
  ∀ (x : Nibble) (s : State),
    (s.index.toNat + 2 < 4096 → Memory.wf s.mem = true → ∃ t, exec (.ldB x) s = .next t ∧
      (Memory.read t.mem s.index.toNat).toNat = (s.getV x).toNat / 100 ∧
      (Memory.read t.mem (s.index.toNat + 1)).toNat = (s.getV x).toNat / 10 % 10 ∧
      (Memory.read t.mem (s.index.toNat + 2)).toNat = (s.getV x).toNat % 10 ∧
      ChangesOnly s t (fun p => ∃ j, j < 3 ∧ p = .byte (s.index.toNat + j))) ∧
    (4096 ≤ s.index.toNat + 2 → exec (.ldB x) s = .next (raised s .memWrite (lowestOutside s.index.toNat)))

/-- R214: LD [I], Vx stores V0..Vx at I..I + x of a canonical memory and keeps I, or raises a MemWriteFault with the
lowest bad address and stores nothing (the spec's decision D12). -/
def Obligations.StoreRegisters : Prop :=
  Selects 0xF055#16 0xF0FF#16 (fun w => .ldMemVx (xField w)) ∧
  ∀ (x : Nibble) (s : State),
    (s.index.toNat + x.toNat < 4096 → Memory.wf s.mem = true → ∃ t, exec (.ldMemVx x) s = .next t ∧
      (∀ r : Nibble, r.toNat ≤ x.toNat → Memory.read t.mem (s.index.toNat + r.toNat) = s.getV r) ∧
      ChangesOnly s t (fun p => ∃ j, j ≤ x.toNat ∧ p = .byte (s.index.toNat + j))) ∧
    (4096 ≤ s.index.toNat + x.toNat →
      exec (.ldMemVx x) s = .next (raised s .memWrite (lowestOutside s.index.toNat)))

/-- R215: LD Vx, [I] loads V0..Vx from I..I + x and keeps I, or raises a MemReadFault with the lowest bad address and
loads nothing (the spec's decision D12). -/
def Obligations.LoadRegisters : Prop :=
  Selects 0xF065#16 0xF0FF#16 (fun w => .ldVxMem (xField w)) ∧
  ∀ (x : Nibble) (s : State),
    (s.index.toNat + x.toNat < 4096 → ∃ t, exec (.ldVxMem x) s = .next t ∧
      (∀ r : Nibble, r.toNat ≤ x.toNat → t.getV r = Memory.read s.mem (s.index.toNat + r.toNat)) ∧
      ChangesOnly s t (fun p => ∃ r : Nibble, r.toNat ≤ x.toNat ∧ p = .reg r)) ∧
    (4096 ≤ s.index.toNat + x.toNat →
      exec (.ldVxMem x) s = .next (raised s .memRead (lowestOutside s.index.toNat)))

/-! ## Keypad and timers -/

/-- R240, R241: SKP and SKNP test the slot whose number is the value V[x], for every word of their slot; a value above
15 raises a KeyIndexFault (the spec's decision D8). -/
def Obligations.KeySkips : Prop :=
  Selects 0xE00E#16 0xF00F#16 (fun w => .skp (xField w)) ∧
  Selects 0xE001#16 0xF00F#16 (fun w => .sknp (xField w)) ∧
  ∀ (x : Nibble) (s : State),
    (∀ k : Fin 16, (s.getV x).toNat = k.val →
      (∃ t, exec (.skp x) s = .next t ∧
        t.pc.toNat = (if s.key[k.val] = true then (s.pc.toNat + 2) % 65536 else s.pc.toNat) ∧
        ChangesOnly s t (fun p => p = .pc)) ∧
      (∃ t, exec (.sknp x) s = .next t ∧
        t.pc.toNat = (if s.key[k.val] = true then s.pc.toNat else (s.pc.toNat + 2) % 65536) ∧
        ChangesOnly s t (fun p => p = .pc))) ∧
    (15 < (s.getV x).toNat →
      exec (.skp x) s = .next (raised s .keyIndex (s.getV x).toNat) ∧
      exec (.sknp x) s = .next (raised s .keyIndex (s.getV x).toNat))

/-- R242: LD Vx, DT reads DT before the step's tick. -/
def Obligations.LdDelayTimerReads : Prop :=
  Selects 0xF007#16 0xF0FF#16 (fun w => .ldVxDt (xField w)) ∧
  (∀ (x : Nibble) (s : State), ∃ t, exec (.ldVxDt x) s = .next t ∧ t.getV x = s.dt ∧
    ChangesOnly s t (fun p => p = .reg x)) ∧
  ∀ (s : State) (w : Word), Fetches s w → w &&& 0xF0FF#16 = 0xF007#16 →
    ∃ t, step s = .next t ∧ t.getV (xField w) = s.dt ∧ t.dt.toNat = s.dt.toNat - 1

/-- R243: LD Vx, K stores the lowest pressed key number, or, with no key pressed, takes pc back to the instruction
itself; a step of it that waits ends at the pc it began at and still ticks both timers. -/
def Obligations.LdKeyWaits : Prop :=
  Selects 0xF00A#16 0xF0FF#16 (fun w => .ldVxK (xField w)) ∧
  (∀ (x : Nibble) (s : State) (k : Fin 16), s.key[k.val] = true → (∀ j : Fin 16, j < k → s.key[j.val] = false) →
    ∃ t, exec (.ldVxK x) s = .next t ∧ (t.getV x).toNat = k.val ∧ ChangesOnly s t (fun p => p = .reg x)) ∧
  (∀ (x : Nibble) (s : State), (∀ k : Fin 16, s.key[k.val] = false) →
    ∃ t, exec (.ldVxK x) s = .next t ∧ t.pc = s.pc - 2#16 ∧ ChangesOnly s t (fun p => p = .pc)) ∧
  ∀ (s : State) (w : Word), Fetches s w → w &&& 0xF0FF#16 = 0xF00A#16 → (∀ k : Fin 16, s.key[k.val] = false) →
    ∃ t, step s = .next t ∧ t.pc = s.pc ∧ t.dt.toNat = s.dt.toNat - 1 ∧ t.st.toNat = s.st.toNat - 1 ∧
      ChangesOnly s t (fun p => p = .dt ∨ p = .st ∨ p = .opcode)

/-- R244: LD DT, Vx, and the same step's tick. -/
def Obligations.LdDelayTimerSets : Prop :=
  Selects 0xF015#16 0xF0FF#16 (fun w => .ldDtVx (xField w)) ∧
  (∀ (x : Nibble) (s : State), ∃ t, exec (.ldDtVx x) s = .next t ∧ t.dt = s.getV x ∧
    ChangesOnly s t (fun p => p = .dt)) ∧
  ∀ (s : State) (w : Word), Fetches s w → w &&& 0xF0FF#16 = 0xF015#16 →
    ∃ t, step s = .next t ∧ t.dt.toNat = (s.getV (xField w)).toNat - 1

/-- R245: LD ST, Vx, and the same step's tick. -/
def Obligations.LdSoundTimerSets : Prop :=
  Selects 0xF018#16 0xF0FF#16 (fun w => .ldStVx (xField w)) ∧
  (∀ (x : Nibble) (s : State), ∃ t, exec (.ldStVx x) s = .next t ∧ t.st = s.getV x ∧
    ChangesOnly s t (fun p => p = .st)) ∧
  ∀ (s : State) (w : Word), Fetches s w → w &&& 0xF0FF#16 = 0xF018#16 →
    ∃ t, step s = .next t ∧ t.st.toNat = (s.getV (xField w)).toNat - 1
end

