-- ==== Sys2Proof/Laws/Decode.lean ====
section
/-!
SUPPORT. The fields of packed words (30_encoding.md R71), the two bytes of a word (20_memory.md R55), and what a row's
mask says about a word's fields (R77).
-/

namespace Sys2Proof

/-! ## Fields as quotients and remainders of the word's number (R72) -/

theorem opField_toNat (w : Word) : (opField w).toNat = w.toNat / 4096 := by
  have := w.isLt
  simp only [opField, BitVec.extractLsb'_toNat, Nat.shiftRight_eq_div_pow]
  omega

theorem xField_toNat (w : Word) : (xField w).toNat = w.toNat / 256 % 16 := by
  simp [xField, BitVec.extractLsb'_toNat, Nat.shiftRight_eq_div_pow]

theorem yField_toNat (w : Word) : (yField w).toNat = w.toNat / 16 % 16 := by
  simp [yField, BitVec.extractLsb'_toNat, Nat.shiftRight_eq_div_pow]

theorem nField_toNat (w : Word) : (nField w).toNat = w.toNat % 16 := by
  simp [nField, BitVec.extractLsb'_toNat]

theorem kkField_toNat (w : Word) : (kkField w).toNat = w.toNat % 256 := by
  simp [kkField, BitVec.extractLsb'_toNat]

theorem nnnField_toNat (w : Word) : (nnnField w).toNat = w.toNat % 4096 := by
  simp [nnnField, BitVec.extractLsb'_toNat]

/-! ## Fields of packed words (R71) -/

/-- Two fields side by side, as a number. -/
theorem append_toNat {a b : Nat} (u : BitVec a) (v : BitVec b) : (u ++ v).toNat = u.toNat * 2 ^ b + v.toNat := by
  rw [BitVec.toNat_append, ← Nat.shiftLeft_add_eq_or_of_lt v.isLt, Nat.shiftLeft_eq]

theorem packXYN_toNat (op x y n : Nibble) :
    (packXYN op x y n).toNat = op.toNat * 4096 + x.toNat * 256 + y.toNat * 16 + n.toNat := by
  simp only [packXYN, append_toNat, Nat.reducePow]
  omega

theorem packXKK_toNat (op x : Nibble) (kk : Byte) :
    (packXKK op x kk).toNat = op.toNat * 4096 + x.toNat * 256 + kk.toNat := by
  simp only [packXKK, append_toNat, Nat.reducePow]
  omega

theorem packNNN_toNat (op : Nibble) (nnn : Addr) : (packNNN op nnn).toNat = op.toNat * 4096 + nnn.toNat := by
  simp only [packNNN, append_toNat, Nat.reducePow]

@[simp] theorem opField_packXYN (op x y n : Nibble) : opField (packXYN op x y n) = op := by
  apply BitVec.eq_of_toNat_eq
  have := op.isLt
  have := x.isLt
  have := y.isLt
  have := n.isLt
  rw [opField_toNat, packXYN_toNat]
  omega

@[simp] theorem xField_packXYN (op x y n : Nibble) : xField (packXYN op x y n) = x := by
  apply BitVec.eq_of_toNat_eq
  have := op.isLt
  have := x.isLt
  have := y.isLt
  have := n.isLt
  rw [xField_toNat, packXYN_toNat]
  omega

@[simp] theorem yField_packXYN (op x y n : Nibble) : yField (packXYN op x y n) = y := by
  apply BitVec.eq_of_toNat_eq
  have := op.isLt
  have := x.isLt
  have := y.isLt
  have := n.isLt
  rw [yField_toNat, packXYN_toNat]
  omega

@[simp] theorem nField_packXYN (op x y n : Nibble) : nField (packXYN op x y n) = n := by
  apply BitVec.eq_of_toNat_eq
  have := op.isLt
  have := x.isLt
  have := y.isLt
  have := n.isLt
  rw [nField_toNat, packXYN_toNat]
  omega

@[simp] theorem opField_packXKK (op x : Nibble) (kk : Byte) : opField (packXKK op x kk) = op := by
  apply BitVec.eq_of_toNat_eq
  have := op.isLt
  have := x.isLt
  have := kk.isLt
  rw [opField_toNat, packXKK_toNat]
  omega

@[simp] theorem xField_packXKK (op x : Nibble) (kk : Byte) : xField (packXKK op x kk) = x := by
  apply BitVec.eq_of_toNat_eq
  have := op.isLt
  have := x.isLt
  have := kk.isLt
  rw [xField_toNat, packXKK_toNat]
  omega

@[simp] theorem kkField_packXKK (op x : Nibble) (kk : Byte) : kkField (packXKK op x kk) = kk := by
  apply BitVec.eq_of_toNat_eq
  have := op.isLt
  have := x.isLt
  have := kk.isLt
  rw [kkField_toNat, packXKK_toNat]
  omega

@[simp] theorem nField_packXKK (op x : Nibble) (kk : Byte) : nField (packXKK op x kk) = kk.extractLsb' 0 4 := by
  apply BitVec.eq_of_toNat_eq
  rw [nField_toNat, packXKK_toNat, BitVec.extractLsb'_toNat]
  simp only [Nat.shiftRight_zero]
  omega

@[simp] theorem opField_packNNN (op : Nibble) (nnn : Addr) : opField (packNNN op nnn) = op := by
  apply BitVec.eq_of_toNat_eq
  have := op.isLt
  have := nnn.isLt
  rw [opField_toNat, packNNN_toNat]
  omega

@[simp] theorem nnnField_packNNN (op : Nibble) (nnn : Addr) : nnnField (packNNN op nnn) = nnn := by
  apply BitVec.eq_of_toNat_eq
  have := op.isLt
  have := nnn.isLt
  rw [nnnField_toNat, packNNN_toNat]
  omega

/-! ## Bytes of a word -/

/-- A word laid out in its two bytes and put together again. -/
@[simp] theorem wordOfBytes_hi_lo (w : Word) : wordOfBytes (hiByte w) (loByte w) = w := by
  apply BitVec.eq_of_getLsbD_eq
  intro i hi
  simp only [wordOfBytes, hiByte, loByte, BitVec.getLsbD_append, BitVec.getLsbD_extractLsb']
  by_cases h : i < 8
  · simp [h]
  · have h1 : i - 8 < 8 := by omega
    have h2 : 8 + (i - 8) = i := by omega
    simp [h, h1, h2]

/-- The first byte counts 256 times the second (R55). -/
theorem wordOfBytes_toNat (hi lo : Byte) : (wordOfBytes hi lo).toNat = 256 * hi.toNat + lo.toNat := by
  have h : (wordOfBytes hi lo).toNat = hi.toNat * 2 ^ 8 + lo.toNat := by simp only [wordOfBytes, append_toNat]
  omega

/-! ## A row's mask and a word's fields -/

/-- A bit of a word is a bit of one of its four fields. -/
theorem opField_getLsbD (w : Word) (i : Nat) (h : i < 4) : (opField w).getLsbD i = w.getLsbD (12 + i) := by
  simp [opField, h]

theorem nField_getLsbD (w : Word) (i : Nat) (h : i < 4) : (nField w).getLsbD i = w.getLsbD i := by
  simp [nField, h]

theorem kkField_getLsbD (w : Word) (i : Nat) (h : i < 8) : (kkField w).getLsbD i = w.getLsbD i := by
  simp [kkField, h]

/-- What a masked word's bits say of the word. -/
theorem getLsbD_of_masked {w m p : Word} (h : w &&& m = p) (i : Nat) (hm : m.getLsbD i = true) :
    w.getLsbD i = p.getLsbD i := by
  rw [← h, BitVec.getLsbD_and, hm, Bool.and_true]

/-- A row with mask 0xF000 fixes the high nibble. -/
theorem opField_of_maskF000 {w p : Word} (h : w &&& 0xF000#16 = p) : opField w = opField p := by
  apply BitVec.eq_of_getLsbD_eq
  intro i hi
  rw [opField_getLsbD w i hi, opField_getLsbD p i hi]
  apply getLsbD_of_masked h
  have : i = 0 ∨ i = 1 ∨ i = 2 ∨ i = 3 := by omega
  rcases this with h | h | h | h <;> subst h <;> decide

/-- A row with mask 0xF00F fixes the high and the low nibble. -/
theorem fields_of_maskF00F {w p : Word} (h : w &&& 0xF00F#16 = p) :
    opField w = opField p ∧ nField w = nField p := by
  constructor
  all_goals
    apply BitVec.eq_of_getLsbD_eq
    intro i hi
    have hc : i = 0 ∨ i = 1 ∨ i = 2 ∨ i = 3 := by omega
  · rw [opField_getLsbD w i hi, opField_getLsbD p i hi]
    apply getLsbD_of_masked h
    rcases hc with h | h | h | h <;> subst h <;> decide
  · rw [nField_getLsbD w i hi, nField_getLsbD p i hi]
    apply getLsbD_of_masked h
    rcases hc with h | h | h | h <;> subst h <;> decide

/-- A row with mask 0xF0FF fixes the high nibble and the low byte. -/
theorem fields_of_maskF0FF {w p : Word} (h : w &&& 0xF0FF#16 = p) :
    opField w = opField p ∧ kkField w = kkField p := by
  constructor
  all_goals
    apply BitVec.eq_of_getLsbD_eq
    intro i hi
  · have hc : i = 0 ∨ i = 1 ∨ i = 2 ∨ i = 3 := by omega
    rw [opField_getLsbD w i hi, opField_getLsbD p i hi]
    apply getLsbD_of_masked h
    rcases hc with h | h | h | h <;> subst h <;> decide
  · rw [kkField_getLsbD w i hi, kkField_getLsbD p i hi]
    apply getLsbD_of_masked h
    have hc : i = 0 ∨ i = 1 ∨ i = 2 ∨ i = 3 ∨ i = 4 ∨ i = 5 ∨ i = 6 ∨ i = 7 := by omega
    rcases hc with h | h | h | h | h | h | h | h <;> subst h <;> decide

end Sys2Proof
end

