-- ==== Sys2Proof/Laws/Config.lean ====
section
/-!
SUPPORT. The numbers of 00_scope.md R6 as numerals, for simp and omega.
-/

namespace Sys2Proof.Config

@[simp] theorem memSize_eq : memSize = 4096 := rfl

@[simp] theorem entry_eq : entry = 512 := rfl

@[simp] theorem reservedEnd_eq : reservedEnd = 512 := rfl

@[simp] theorem fontSize_eq : fontSize = 80 := rfl

@[simp] theorem glyphBytes_eq : glyphBytes = 5 := rfl

@[simp] theorem romMax_eq : romMax = 3584 := rfl

/-- FONT_BASE + 80 ≤ 0x200 (R6). -/
theorem font_below_reservedEnd : fontBase.val + fontSize ≤ reservedEnd := by
  have := fontBase.isLt
  simp only [fontSize_eq, reservedEnd_eq]
  omega

end Sys2Proof.Config
end

