-- ==== Sys2Proof/Laws/Memory.lean ====
section
/-!
SUPPORT. The laws of memory: a byte written is read again and no other address changes (20_memory.md R58), and every
write keeps the canonical form.
-/

namespace Sys2Proof.Machine

/-! ## One byte -/

/-- Reading below the first listed address finds no cell. -/
theorem Memory.read_of_lt_wfFrom {m : Memory} {low a : Nat} (hm : Memory.wfFrom low m = true) (h : a < low) :
    Memory.read m a = Memory.unlisted a := by
  induction m generalizing low with
  | nil => rfl
  | cons c rest ih =>
    obtain ⟨b, w⟩ := c
    simp only [Memory.wfFrom, Bool.and_eq_true, decide_eq_true_eq] at hm
    have hne : a ≠ b := by omega
    simp only [Memory.read, hne, if_false]
    exact ih hm.2 (by omega)

/-- A write changes what is read at its address alone, in a canonical memory. -/
theorem Memory.read_write {m : Memory} {low : Nat} (hm : Memory.wfFrom low m = true) (a : Nat) (v : Byte) (b : Nat) :
    Memory.read (Memory.write m a v) b = if b = a then v else Memory.read m b := by
  induction m generalizing low with
  | nil =>
    simp only [Memory.write]
    split <;> rename_i hv
    · by_cases hb : b = a
      · subst hb; simp [Memory.read, hv]
      · simp [hb]
    · by_cases hb : b = a <;> simp [Memory.read, hb]
  | cons c rest ih =>
    obtain ⟨k, w⟩ := c
    simp only [Memory.wfFrom, Bool.and_eq_true, decide_eq_true_eq] at hm
    simp only [Memory.write]
    split
    · rename_i hlt
      have hbelow : Memory.read rest a = Memory.unlisted a := Memory.read_of_lt_wfFrom hm.2 (by omega)
      have hk : a ≠ k := by omega
      split <;> rename_i hv
      · by_cases hb : b = a
        · subst hb; simp [Memory.read, hk, hbelow, hv]
        · simp [hb]
      · by_cases hb : b = a <;> simp [Memory.read, hb]
    · split
      · rename_i hak
        subst hak
        have hbelow : Memory.read rest a = Memory.unlisted a := Memory.read_of_lt_wfFrom hm.2 (by omega)
        split <;> rename_i hv
        · by_cases hb : b = a
          · subst hb; simp [hbelow, hv]
          · simp [Memory.read, hb]
        · by_cases hb : b = a <;> simp [Memory.read, hb]
      · rename_i hak
        simp only [Memory.read, ih hm.2]
        by_cases hbk : b = k
        · have hka : k ≠ a := fun e => hak e.symm
          simp [hbk, hka]
        · simp [hbk]

/-- A write leaves what is read at every other address, whatever the list looks like. -/
theorem Memory.read_write_ne (m : Memory) (a : Nat) (v : Byte) {b : Nat} (hb : b ≠ a) :
    Memory.read (Memory.write m a v) b = Memory.read m b := by
  induction m with
  | nil => simp only [Memory.write]; split <;> simp [Memory.read, hb]
  | cons c rest ih =>
    obtain ⟨k, w⟩ := c
    simp only [Memory.write]
    split
    · split <;> simp [Memory.read, hb]
    · split
      · rename_i hak
        subst hak
        split <;> simp [Memory.read, hb]
      · simp only [Memory.read, ih]

/-- A write inside the address space keeps the canonical form from any start at or below its address. -/
theorem Memory.write_wfFrom {m : Memory} {low a : Nat} (hm : Memory.wfFrom low m = true) (hlow : low ≤ a)
    (ha : a < Config.memSize) (v : Byte) : Memory.wfFrom low (Memory.write m a v) = true := by
  induction m generalizing low with
  | nil =>
    simp only [Memory.write]
    split
    · rfl
    · rename_i hv; simp [Memory.wfFrom, hlow, ha, hv]
  | cons c rest ih =>
    obtain ⟨k, w⟩ := c
    simp only [Memory.wfFrom, Bool.and_eq_true, decide_eq_true_eq] at hm
    simp only [Memory.write]
    split
    · rename_i hlt
      split <;> rename_i hv
      · simp [Memory.wfFrom, hm]
      · simp [Memory.wfFrom, hm, hlow, ha, hv, Nat.succ_le_of_lt hlt]
    · split
      · rename_i hak
        subst hak
        split <;> rename_i hv
        · have step : ∀ (l : Memory) (p q : Nat), p ≤ q → Memory.wfFrom q l = true → Memory.wfFrom p l = true := by
            intro l p q hpq hl
            cases l with
            | nil => rfl
            | cons d ds =>
              simp only [Memory.wfFrom, Bool.and_eq_true, decide_eq_true_eq] at hl ⊢
              exact ⟨⟨⟨by omega, hl.1.1.2⟩, hl.1.2⟩, hl.2⟩
          exact step rest low (a + 1) (by omega) hm.2
        · simp [Memory.wfFrom, hm, hv]
      · rename_i hlt hak
        simp only [Memory.wfFrom, Bool.and_eq_true, decide_eq_true_eq]
        exact ⟨hm.1, ih hm.2 (by omega)⟩

/-- A write inside the address space keeps the canonical form. -/
theorem Memory.write_wf {m : Memory} {a : Nat} (hm : Memory.wf m = true) (ha : a < Config.memSize) (v : Byte) :
    Memory.wf (Memory.write m a v) = true :=
  Memory.write_wfFrom hm (Nat.zero_le a) ha v

/-- The reset memory, which lists nothing, is canonical. -/
theorem Memory.wf_reset : Memory.wf State.reset.mem = true := rfl

/-! ## Several bytes -/

/-- Stores inside the address space keep the canonical form. -/
theorem Memory.writeList_wf {m : Memory} {base : Nat} {bs : List Byte} (hm : Memory.wf m = true)
    (h : base + bs.length ≤ Config.memSize) : Memory.wf (Memory.writeList m base bs) = true := by
  induction bs generalizing m base with
  | nil => exact hm
  | cons b bs ih =>
    simp only [List.length_cons] at h
    exact ih (Memory.write_wf hm (by omega) b) (by omega)

/-- The stored bytes are read again, and every other address reads as before. -/
theorem Memory.read_writeList {m : Memory} {base : Nat} {bs : List Byte} (hm : Memory.wf m = true)
    (h : base + bs.length ≤ Config.memSize) (a : Nat) :
    Memory.read (Memory.writeList m base bs) a =
      if base ≤ a then bs[a - base]?.getD (Memory.read m a) else Memory.read m a := by
  induction bs generalizing m base with
  | nil => simp [Memory.writeList]
  | cons b bs ih =>
    simp only [List.length_cons] at h
    rw [Memory.writeList, ih (Memory.write_wf hm (by omega) b) (by omega), Memory.read_write hm]
    by_cases h1 : base + 1 ≤ a
    · have hne : a ≠ base := by omega
      have hsub : a - base = (a - (base + 1)) + 1 := by omega
      simp [h1, hne, Nat.le_of_succ_le h1, hsub]
    · by_cases h2 : a = base
      · subst h2; simp
      · have : ¬ base ≤ a := by omega
        simp [h1, h2, this]

/-- A stored byte is read again. -/
theorem Memory.read_writeList_stored {m : Memory} {base : Nat} {bs : List Byte} (hm : Memory.wf m = true)
    (h : base + bs.length ≤ Config.memSize) (j : Nat) (hj : j < bs.length) :
    Memory.read (Memory.writeList m base bs) (base + j) = bs[j] := by
  rw [Memory.read_writeList hm h]
  simp [hj]

/-- An address outside the stored bytes reads as before, whatever the list looks like. -/
theorem Memory.read_writeList_other (m : Memory) (base : Nat) (bs : List Byte) (a : Nat)
    (ha : a < base ∨ base + bs.length ≤ a) :
    Memory.read (Memory.writeList m base bs) a = Memory.read m a := by
  induction bs generalizing m base with
  | nil => rfl
  | cons b bs ih =>
    simp only [List.length_cons] at ha
    rw [Memory.writeList, ih _ _ (by omega), Memory.read_write_ne _ _ _ (by omega)]

end Sys2Proof.Machine
end

