-- ==== Sys2Proof/Laws/State.lean ====
section
/-!
SUPPORT. What each update of the state does to each field, and to the two views `getV` and `pixel`.
-/

namespace Sys2Proof.Machine

variable (s : State)

/-! ## setV -/

@[simp] theorem State.setV_v (x : Nibble) (b : Byte) : (s.setV x b).v = s.v.set x.toNat b x.isLt := rfl
@[simp] theorem State.setV_mem (x : Nibble) (b : Byte) : (s.setV x b).mem = s.mem := rfl
@[simp] theorem State.setV_index (x : Nibble) (b : Byte) : (s.setV x b).index = s.index := rfl
@[simp] theorem State.setV_pc (x : Nibble) (b : Byte) : (s.setV x b).pc = s.pc := rfl
@[simp] theorem State.setV_stack (x : Nibble) (b : Byte) : (s.setV x b).stack = s.stack := rfl
@[simp] theorem State.setV_sp (x : Nibble) (b : Byte) : (s.setV x b).sp = s.sp := rfl
@[simp] theorem State.setV_dt (x : Nibble) (b : Byte) : (s.setV x b).dt = s.dt := rfl
@[simp] theorem State.setV_st (x : Nibble) (b : Byte) : (s.setV x b).st = s.st := rfl
@[simp] theorem State.setV_key (x : Nibble) (b : Byte) : (s.setV x b).key = s.key := rfl
@[simp] theorem State.setV_fb (x : Nibble) (b : Byte) : (s.setV x b).fb = s.fb := rfl
@[simp] theorem State.setV_opcode (x : Nibble) (b : Byte) : (s.setV x b).opcode = s.opcode := rfl
@[simp] theorem State.setV_fault (x : Nibble) (b : Byte) : (s.setV x b).fault = s.fault := rfl
@[simp] theorem State.setV_draws (x : Nibble) (b : Byte) : (s.setV x b).draws = s.draws := rfl
@[simp] theorem State.setV_pixel (x : Nibble) (b : Byte) (i : Fin 32) (j : Fin 64) : (s.setV x b).pixel i j = s.pixel i j := rfl

/-! ## setIndex -/

@[simp] theorem State.setIndex_v (w : Word) : (s.setIndex w).v = s.v := rfl
@[simp] theorem State.setIndex_mem (w : Word) : (s.setIndex w).mem = s.mem := rfl
@[simp] theorem State.setIndex_index (w : Word) : (s.setIndex w).index = w := rfl
@[simp] theorem State.setIndex_pc (w : Word) : (s.setIndex w).pc = s.pc := rfl
@[simp] theorem State.setIndex_stack (w : Word) : (s.setIndex w).stack = s.stack := rfl
@[simp] theorem State.setIndex_sp (w : Word) : (s.setIndex w).sp = s.sp := rfl
@[simp] theorem State.setIndex_dt (w : Word) : (s.setIndex w).dt = s.dt := rfl
@[simp] theorem State.setIndex_st (w : Word) : (s.setIndex w).st = s.st := rfl
@[simp] theorem State.setIndex_key (w : Word) : (s.setIndex w).key = s.key := rfl
@[simp] theorem State.setIndex_fb (w : Word) : (s.setIndex w).fb = s.fb := rfl
@[simp] theorem State.setIndex_opcode (w : Word) : (s.setIndex w).opcode = s.opcode := rfl
@[simp] theorem State.setIndex_fault (w : Word) : (s.setIndex w).fault = s.fault := rfl
@[simp] theorem State.setIndex_draws (w : Word) : (s.setIndex w).draws = s.draws := rfl
@[simp] theorem State.setIndex_getV (w : Word) (r : Nibble) : (s.setIndex w).getV r = s.getV r := rfl
@[simp] theorem State.setIndex_pixel (w : Word) (i : Fin 32) (j : Fin 64) : (s.setIndex w).pixel i j = s.pixel i j := rfl

/-! ## setPc -/

@[simp] theorem State.setPc_v (w : Word) : (s.setPc w).v = s.v := rfl
@[simp] theorem State.setPc_mem (w : Word) : (s.setPc w).mem = s.mem := rfl
@[simp] theorem State.setPc_index (w : Word) : (s.setPc w).index = s.index := rfl
@[simp] theorem State.setPc_pc (w : Word) : (s.setPc w).pc = w := rfl
@[simp] theorem State.setPc_stack (w : Word) : (s.setPc w).stack = s.stack := rfl
@[simp] theorem State.setPc_sp (w : Word) : (s.setPc w).sp = s.sp := rfl
@[simp] theorem State.setPc_dt (w : Word) : (s.setPc w).dt = s.dt := rfl
@[simp] theorem State.setPc_st (w : Word) : (s.setPc w).st = s.st := rfl
@[simp] theorem State.setPc_key (w : Word) : (s.setPc w).key = s.key := rfl
@[simp] theorem State.setPc_fb (w : Word) : (s.setPc w).fb = s.fb := rfl
@[simp] theorem State.setPc_opcode (w : Word) : (s.setPc w).opcode = s.opcode := rfl
@[simp] theorem State.setPc_fault (w : Word) : (s.setPc w).fault = s.fault := rfl
@[simp] theorem State.setPc_draws (w : Word) : (s.setPc w).draws = s.draws := rfl
@[simp] theorem State.setPc_getV (w : Word) (r : Nibble) : (s.setPc w).getV r = s.getV r := rfl
@[simp] theorem State.setPc_pixel (w : Word) (i : Fin 32) (j : Fin 64) : (s.setPc w).pixel i j = s.pixel i j := rfl

/-! ## repeatInstr -/

@[simp] theorem State.repeatInstr_v : (s.repeatInstr).v = s.v := rfl
@[simp] theorem State.repeatInstr_mem : (s.repeatInstr).mem = s.mem := rfl
@[simp] theorem State.repeatInstr_index : (s.repeatInstr).index = s.index := rfl
@[simp] theorem State.repeatInstr_pc : (s.repeatInstr).pc = s.pc - 2#16 := rfl
@[simp] theorem State.repeatInstr_stack : (s.repeatInstr).stack = s.stack := rfl
@[simp] theorem State.repeatInstr_sp : (s.repeatInstr).sp = s.sp := rfl
@[simp] theorem State.repeatInstr_dt : (s.repeatInstr).dt = s.dt := rfl
@[simp] theorem State.repeatInstr_st : (s.repeatInstr).st = s.st := rfl
@[simp] theorem State.repeatInstr_key : (s.repeatInstr).key = s.key := rfl
@[simp] theorem State.repeatInstr_fb : (s.repeatInstr).fb = s.fb := rfl
@[simp] theorem State.repeatInstr_opcode : (s.repeatInstr).opcode = s.opcode := rfl
@[simp] theorem State.repeatInstr_fault : (s.repeatInstr).fault = s.fault := rfl
@[simp] theorem State.repeatInstr_draws : (s.repeatInstr).draws = s.draws := rfl
@[simp] theorem State.repeatInstr_getV (r : Nibble) : (s.repeatInstr).getV r = s.getV r := rfl
@[simp] theorem State.repeatInstr_pixel (i : Fin 32) (j : Fin 64) : (s.repeatInstr).pixel i j = s.pixel i j := rfl

/-! ## push -/

@[simp] theorem State.push_v (w : Word) (h : s.sp.val < 16) : (s.push w h).v = s.v := rfl
@[simp] theorem State.push_mem (w : Word) (h : s.sp.val < 16) : (s.push w h).mem = s.mem := rfl
@[simp] theorem State.push_index (w : Word) (h : s.sp.val < 16) : (s.push w h).index = s.index := rfl
@[simp] theorem State.push_pc (w : Word) (h : s.sp.val < 16) : (s.push w h).pc = s.pc := rfl
@[simp] theorem State.push_stack (w : Word) (h : s.sp.val < 16) : (s.push w h).stack = s.stack.set s.sp.val w h := rfl
@[simp] theorem State.push_sp (w : Word) (h : s.sp.val < 16) : (s.push w h).sp = ⟨s.sp.val + 1, Nat.succ_lt_succ h⟩ := rfl
@[simp] theorem State.push_dt (w : Word) (h : s.sp.val < 16) : (s.push w h).dt = s.dt := rfl
@[simp] theorem State.push_st (w : Word) (h : s.sp.val < 16) : (s.push w h).st = s.st := rfl
@[simp] theorem State.push_key (w : Word) (h : s.sp.val < 16) : (s.push w h).key = s.key := rfl
@[simp] theorem State.push_fb (w : Word) (h : s.sp.val < 16) : (s.push w h).fb = s.fb := rfl
@[simp] theorem State.push_opcode (w : Word) (h : s.sp.val < 16) : (s.push w h).opcode = s.opcode := rfl
@[simp] theorem State.push_fault (w : Word) (h : s.sp.val < 16) : (s.push w h).fault = s.fault := rfl
@[simp] theorem State.push_draws (w : Word) (h : s.sp.val < 16) : (s.push w h).draws = s.draws := rfl
@[simp] theorem State.push_getV (w : Word) (h : s.sp.val < 16) (r : Nibble) : (s.push w h).getV r = s.getV r := rfl
@[simp] theorem State.push_pixel (w : Word) (h : s.sp.val < 16) (i : Fin 32) (j : Fin 64) : (s.push w h).pixel i j = s.pixel i j := rfl

/-! ## popPc -/

@[simp] theorem State.popPc_v (h : 0 < s.sp.val) : (s.popPc h).v = s.v := rfl
@[simp] theorem State.popPc_mem (h : 0 < s.sp.val) : (s.popPc h).mem = s.mem := rfl
@[simp] theorem State.popPc_index (h : 0 < s.sp.val) : (s.popPc h).index = s.index := rfl
@[simp] theorem State.popPc_pc (h : 0 < s.sp.val) : (s.popPc h).pc = s.topEntry h := rfl
@[simp] theorem State.popPc_stack (h : 0 < s.sp.val) : (s.popPc h).stack = s.stack := rfl
@[simp] theorem State.popPc_sp (h : 0 < s.sp.val) : (s.popPc h).sp = ⟨s.sp.val - 1, by have := s.sp.isLt; omega⟩ := rfl
@[simp] theorem State.popPc_dt (h : 0 < s.sp.val) : (s.popPc h).dt = s.dt := rfl
@[simp] theorem State.popPc_st (h : 0 < s.sp.val) : (s.popPc h).st = s.st := rfl
@[simp] theorem State.popPc_key (h : 0 < s.sp.val) : (s.popPc h).key = s.key := rfl
@[simp] theorem State.popPc_fb (h : 0 < s.sp.val) : (s.popPc h).fb = s.fb := rfl
@[simp] theorem State.popPc_opcode (h : 0 < s.sp.val) : (s.popPc h).opcode = s.opcode := rfl
@[simp] theorem State.popPc_fault (h : 0 < s.sp.val) : (s.popPc h).fault = s.fault := rfl
@[simp] theorem State.popPc_draws (h : 0 < s.sp.val) : (s.popPc h).draws = s.draws := rfl
@[simp] theorem State.popPc_getV (h : 0 < s.sp.val) (r : Nibble) : (s.popPc h).getV r = s.getV r := rfl
@[simp] theorem State.popPc_pixel (h : 0 < s.sp.val) (i : Fin 32) (j : Fin 64) : (s.popPc h).pixel i j = s.pixel i j := rfl

/-! ## setDt -/

@[simp] theorem State.setDt_v (b : Byte) : (s.setDt b).v = s.v := rfl
@[simp] theorem State.setDt_mem (b : Byte) : (s.setDt b).mem = s.mem := rfl
@[simp] theorem State.setDt_index (b : Byte) : (s.setDt b).index = s.index := rfl
@[simp] theorem State.setDt_pc (b : Byte) : (s.setDt b).pc = s.pc := rfl
@[simp] theorem State.setDt_stack (b : Byte) : (s.setDt b).stack = s.stack := rfl
@[simp] theorem State.setDt_sp (b : Byte) : (s.setDt b).sp = s.sp := rfl
@[simp] theorem State.setDt_dt (b : Byte) : (s.setDt b).dt = b := rfl
@[simp] theorem State.setDt_st (b : Byte) : (s.setDt b).st = s.st := rfl
@[simp] theorem State.setDt_key (b : Byte) : (s.setDt b).key = s.key := rfl
@[simp] theorem State.setDt_fb (b : Byte) : (s.setDt b).fb = s.fb := rfl
@[simp] theorem State.setDt_opcode (b : Byte) : (s.setDt b).opcode = s.opcode := rfl
@[simp] theorem State.setDt_fault (b : Byte) : (s.setDt b).fault = s.fault := rfl
@[simp] theorem State.setDt_draws (b : Byte) : (s.setDt b).draws = s.draws := rfl
@[simp] theorem State.setDt_getV (b : Byte) (r : Nibble) : (s.setDt b).getV r = s.getV r := rfl
@[simp] theorem State.setDt_pixel (b : Byte) (i : Fin 32) (j : Fin 64) : (s.setDt b).pixel i j = s.pixel i j := rfl

/-! ## setSt -/

@[simp] theorem State.setSt_v (b : Byte) : (s.setSt b).v = s.v := rfl
@[simp] theorem State.setSt_mem (b : Byte) : (s.setSt b).mem = s.mem := rfl
@[simp] theorem State.setSt_index (b : Byte) : (s.setSt b).index = s.index := rfl
@[simp] theorem State.setSt_pc (b : Byte) : (s.setSt b).pc = s.pc := rfl
@[simp] theorem State.setSt_stack (b : Byte) : (s.setSt b).stack = s.stack := rfl
@[simp] theorem State.setSt_sp (b : Byte) : (s.setSt b).sp = s.sp := rfl
@[simp] theorem State.setSt_dt (b : Byte) : (s.setSt b).dt = s.dt := rfl
@[simp] theorem State.setSt_st (b : Byte) : (s.setSt b).st = b := rfl
@[simp] theorem State.setSt_key (b : Byte) : (s.setSt b).key = s.key := rfl
@[simp] theorem State.setSt_fb (b : Byte) : (s.setSt b).fb = s.fb := rfl
@[simp] theorem State.setSt_opcode (b : Byte) : (s.setSt b).opcode = s.opcode := rfl
@[simp] theorem State.setSt_fault (b : Byte) : (s.setSt b).fault = s.fault := rfl
@[simp] theorem State.setSt_draws (b : Byte) : (s.setSt b).draws = s.draws := rfl
@[simp] theorem State.setSt_getV (b : Byte) (r : Nibble) : (s.setSt b).getV r = s.getV r := rfl
@[simp] theorem State.setSt_pixel (b : Byte) (i : Fin 32) (j : Fin 64) : (s.setSt b).pixel i j = s.pixel i j := rfl

/-! ## tick -/

@[simp] theorem State.tick_v : (s.tick).v = s.v := rfl
@[simp] theorem State.tick_mem : (s.tick).mem = s.mem := rfl
@[simp] theorem State.tick_index : (s.tick).index = s.index := rfl
@[simp] theorem State.tick_pc : (s.tick).pc = s.pc := rfl
@[simp] theorem State.tick_stack : (s.tick).stack = s.stack := rfl
@[simp] theorem State.tick_sp : (s.tick).sp = s.sp := rfl
@[simp] theorem State.tick_dt : (s.tick).dt = countDown s.dt := rfl
@[simp] theorem State.tick_st : (s.tick).st = countDown s.st := rfl
@[simp] theorem State.tick_key : (s.tick).key = s.key := rfl
@[simp] theorem State.tick_fb : (s.tick).fb = s.fb := rfl
@[simp] theorem State.tick_opcode : (s.tick).opcode = s.opcode := rfl
@[simp] theorem State.tick_fault : (s.tick).fault = s.fault := rfl
@[simp] theorem State.tick_draws : (s.tick).draws = s.draws := rfl
@[simp] theorem State.tick_getV (r : Nibble) : (s.tick).getV r = s.getV r := rfl
@[simp] theorem State.tick_pixel (i : Fin 32) (j : Fin 64) : (s.tick).pixel i j = s.pixel i j := rfl

/-! ## countDraw -/

@[simp] theorem State.countDraw_v : (s.countDraw).v = s.v := rfl
@[simp] theorem State.countDraw_mem : (s.countDraw).mem = s.mem := rfl
@[simp] theorem State.countDraw_index : (s.countDraw).index = s.index := rfl
@[simp] theorem State.countDraw_pc : (s.countDraw).pc = s.pc := rfl
@[simp] theorem State.countDraw_stack : (s.countDraw).stack = s.stack := rfl
@[simp] theorem State.countDraw_sp : (s.countDraw).sp = s.sp := rfl
@[simp] theorem State.countDraw_dt : (s.countDraw).dt = s.dt := rfl
@[simp] theorem State.countDraw_st : (s.countDraw).st = s.st := rfl
@[simp] theorem State.countDraw_key : (s.countDraw).key = s.key := rfl
@[simp] theorem State.countDraw_fb : (s.countDraw).fb = s.fb := rfl
@[simp] theorem State.countDraw_opcode : (s.countDraw).opcode = s.opcode := rfl
@[simp] theorem State.countDraw_fault : (s.countDraw).fault = s.fault := rfl
@[simp] theorem State.countDraw_draws : (s.countDraw).draws = s.draws + 1 := rfl
@[simp] theorem State.countDraw_getV (r : Nibble) : (s.countDraw).getV r = s.getV r := rfl
@[simp] theorem State.countDraw_pixel (i : Fin 32) (j : Fin 64) : (s.countDraw).pixel i j = s.pixel i j := rfl

/-! ## setPixel -/

@[simp] theorem State.setPixel_v (row : Fin 32) (col : Fin 64) (p : Bool) : (s.setPixel row col p).v = s.v := rfl
@[simp] theorem State.setPixel_mem (row : Fin 32) (col : Fin 64) (p : Bool) : (s.setPixel row col p).mem = s.mem := rfl
@[simp] theorem State.setPixel_index (row : Fin 32) (col : Fin 64) (p : Bool) : (s.setPixel row col p).index = s.index := rfl
@[simp] theorem State.setPixel_pc (row : Fin 32) (col : Fin 64) (p : Bool) : (s.setPixel row col p).pc = s.pc := rfl
@[simp] theorem State.setPixel_stack (row : Fin 32) (col : Fin 64) (p : Bool) : (s.setPixel row col p).stack = s.stack := rfl
@[simp] theorem State.setPixel_sp (row : Fin 32) (col : Fin 64) (p : Bool) : (s.setPixel row col p).sp = s.sp := rfl
@[simp] theorem State.setPixel_dt (row : Fin 32) (col : Fin 64) (p : Bool) : (s.setPixel row col p).dt = s.dt := rfl
@[simp] theorem State.setPixel_st (row : Fin 32) (col : Fin 64) (p : Bool) : (s.setPixel row col p).st = s.st := rfl
@[simp] theorem State.setPixel_key (row : Fin 32) (col : Fin 64) (p : Bool) : (s.setPixel row col p).key = s.key := rfl
@[simp] theorem State.setPixel_fb (row : Fin 32) (col : Fin 64) (p : Bool) : (s.setPixel row col p).fb = s.fb.set row.val ((s.fb[row.val]).set col.val p) := rfl
@[simp] theorem State.setPixel_opcode (row : Fin 32) (col : Fin 64) (p : Bool) : (s.setPixel row col p).opcode = s.opcode := rfl
@[simp] theorem State.setPixel_fault (row : Fin 32) (col : Fin 64) (p : Bool) : (s.setPixel row col p).fault = s.fault := rfl
@[simp] theorem State.setPixel_draws (row : Fin 32) (col : Fin 64) (p : Bool) : (s.setPixel row col p).draws = s.draws := rfl
@[simp] theorem State.setPixel_getV (row : Fin 32) (col : Fin 64) (p : Bool) (r : Nibble) : (s.setPixel row col p).getV r = s.getV r := rfl

/-! ## clearPixels -/

@[simp] theorem State.clearPixels_v : (s.clearPixels).v = s.v := rfl
@[simp] theorem State.clearPixels_mem : (s.clearPixels).mem = s.mem := rfl
@[simp] theorem State.clearPixels_index : (s.clearPixels).index = s.index := rfl
@[simp] theorem State.clearPixels_pc : (s.clearPixels).pc = s.pc := rfl
@[simp] theorem State.clearPixels_stack : (s.clearPixels).stack = s.stack := rfl
@[simp] theorem State.clearPixels_sp : (s.clearPixels).sp = s.sp := rfl
@[simp] theorem State.clearPixels_dt : (s.clearPixels).dt = s.dt := rfl
@[simp] theorem State.clearPixels_st : (s.clearPixels).st = s.st := rfl
@[simp] theorem State.clearPixels_key : (s.clearPixels).key = s.key := rfl
@[simp] theorem State.clearPixels_fb : (s.clearPixels).fb = Vector.replicate 32 (Vector.replicate 64 false) := rfl
@[simp] theorem State.clearPixels_opcode : (s.clearPixels).opcode = s.opcode := rfl
@[simp] theorem State.clearPixels_fault : (s.clearPixels).fault = s.fault := rfl
@[simp] theorem State.clearPixels_draws : (s.clearPixels).draws = s.draws := rfl
@[simp] theorem State.clearPixels_getV (r : Nibble) : (s.clearPixels).getV r = s.getV r := rfl

/-! ## raise -/

@[simp] theorem State.raise_v (c : FaultCause) (info : Nat) : (s.raise c info).v = s.v := rfl
@[simp] theorem State.raise_mem (c : FaultCause) (info : Nat) : (s.raise c info).mem = s.mem := rfl
@[simp] theorem State.raise_index (c : FaultCause) (info : Nat) : (s.raise c info).index = s.index := rfl
@[simp] theorem State.raise_pc (c : FaultCause) (info : Nat) : (s.raise c info).pc = s.pc := rfl
@[simp] theorem State.raise_stack (c : FaultCause) (info : Nat) : (s.raise c info).stack = s.stack := rfl
@[simp] theorem State.raise_sp (c : FaultCause) (info : Nat) : (s.raise c info).sp = s.sp := rfl
@[simp] theorem State.raise_dt (c : FaultCause) (info : Nat) : (s.raise c info).dt = s.dt := rfl
@[simp] theorem State.raise_st (c : FaultCause) (info : Nat) : (s.raise c info).st = s.st := rfl
@[simp] theorem State.raise_key (c : FaultCause) (info : Nat) : (s.raise c info).key = s.key := rfl
@[simp] theorem State.raise_fb (c : FaultCause) (info : Nat) : (s.raise c info).fb = s.fb := rfl
@[simp] theorem State.raise_opcode (c : FaultCause) (info : Nat) : (s.raise c info).opcode = s.opcode := rfl
@[simp] theorem State.raise_fault (c : FaultCause) (info : Nat) : (s.raise c info).fault = some ⟨c, s.pc - 2#16, some s.opcode, info⟩ := rfl
@[simp] theorem State.raise_draws (c : FaultCause) (info : Nat) : (s.raise c info).draws = s.draws := rfl
@[simp] theorem State.raise_getV (c : FaultCause) (info : Nat) (r : Nibble) : (s.raise c info).getV r = s.getV r := rfl
@[simp] theorem State.raise_pixel (c : FaultCause) (info : Nat) (i : Fin 32) (j : Fin 64) : (s.raise c info).pixel i j = s.pixel i j := rfl

/-! ## takeFault -/

@[simp] theorem State.takeFault_v (c : FaultCause) (a : Word) (w : Option Word) (info : Nat) : (s.takeFault c a w info).v = s.v := rfl
@[simp] theorem State.takeFault_mem (c : FaultCause) (a : Word) (w : Option Word) (info : Nat) : (s.takeFault c a w info).mem = s.mem := rfl
@[simp] theorem State.takeFault_index (c : FaultCause) (a : Word) (w : Option Word) (info : Nat) : (s.takeFault c a w info).index = s.index := rfl
@[simp] theorem State.takeFault_pc (c : FaultCause) (a : Word) (w : Option Word) (info : Nat) : (s.takeFault c a w info).pc = s.pc := rfl
@[simp] theorem State.takeFault_stack (c : FaultCause) (a : Word) (w : Option Word) (info : Nat) : (s.takeFault c a w info).stack = s.stack := rfl
@[simp] theorem State.takeFault_sp (c : FaultCause) (a : Word) (w : Option Word) (info : Nat) : (s.takeFault c a w info).sp = s.sp := rfl
@[simp] theorem State.takeFault_dt (c : FaultCause) (a : Word) (w : Option Word) (info : Nat) : (s.takeFault c a w info).dt = s.dt := rfl
@[simp] theorem State.takeFault_st (c : FaultCause) (a : Word) (w : Option Word) (info : Nat) : (s.takeFault c a w info).st = s.st := rfl
@[simp] theorem State.takeFault_key (c : FaultCause) (a : Word) (w : Option Word) (info : Nat) : (s.takeFault c a w info).key = s.key := rfl
@[simp] theorem State.takeFault_fb (c : FaultCause) (a : Word) (w : Option Word) (info : Nat) : (s.takeFault c a w info).fb = s.fb := rfl
@[simp] theorem State.takeFault_opcode (c : FaultCause) (a : Word) (w : Option Word) (info : Nat) : (s.takeFault c a w info).opcode = s.opcode := rfl
@[simp] theorem State.takeFault_fault (c : FaultCause) (a : Word) (w : Option Word) (info : Nat) : (s.takeFault c a w info).fault = some ⟨c, a, w, info⟩ := rfl
@[simp] theorem State.takeFault_draws (c : FaultCause) (a : Word) (w : Option Word) (info : Nat) : (s.takeFault c a w info).draws = s.draws := rfl
@[simp] theorem State.takeFault_getV (c : FaultCause) (a : Word) (w : Option Word) (info : Nat) (r : Nibble) : (s.takeFault c a w info).getV r = s.getV r := rfl
@[simp] theorem State.takeFault_pixel (c : FaultCause) (a : Word) (w : Option Word) (info : Nat) (i : Fin 32) (j : Fin 64) : (s.takeFault c a w info).pixel i j = s.pixel i j := rfl

/-! ## latch -/

@[simp] theorem State.latch_v (w : Word) : (s.latch w).v = s.v := rfl
@[simp] theorem State.latch_mem (w : Word) : (s.latch w).mem = s.mem := rfl
@[simp] theorem State.latch_index (w : Word) : (s.latch w).index = s.index := rfl
@[simp] theorem State.latch_pc (w : Word) : (s.latch w).pc = s.pc + 2#16 := rfl
@[simp] theorem State.latch_stack (w : Word) : (s.latch w).stack = s.stack := rfl
@[simp] theorem State.latch_sp (w : Word) : (s.latch w).sp = s.sp := rfl
@[simp] theorem State.latch_dt (w : Word) : (s.latch w).dt = s.dt := rfl
@[simp] theorem State.latch_st (w : Word) : (s.latch w).st = s.st := rfl
@[simp] theorem State.latch_key (w : Word) : (s.latch w).key = s.key := rfl
@[simp] theorem State.latch_fb (w : Word) : (s.latch w).fb = s.fb := rfl
@[simp] theorem State.latch_opcode (w : Word) : (s.latch w).opcode = w := rfl
@[simp] theorem State.latch_fault (w : Word) : (s.latch w).fault = s.fault := rfl
@[simp] theorem State.latch_draws (w : Word) : (s.latch w).draws = s.draws := rfl
@[simp] theorem State.latch_getV (w : Word) (r : Nibble) : (s.latch w).getV r = s.getV r := rfl
@[simp] theorem State.latch_pixel (w : Word) (i : Fin 32) (j : Fin 64) : (s.latch w).pixel i j = s.pixel i j := rfl

/-! ## setKeys -/

@[simp] theorem State.setKeys_v (keys : Vector Bool 16) : (s.setKeys keys).v = s.v := rfl
@[simp] theorem State.setKeys_mem (keys : Vector Bool 16) : (s.setKeys keys).mem = s.mem := rfl
@[simp] theorem State.setKeys_index (keys : Vector Bool 16) : (s.setKeys keys).index = s.index := rfl
@[simp] theorem State.setKeys_pc (keys : Vector Bool 16) : (s.setKeys keys).pc = s.pc := rfl
@[simp] theorem State.setKeys_stack (keys : Vector Bool 16) : (s.setKeys keys).stack = s.stack := rfl
@[simp] theorem State.setKeys_sp (keys : Vector Bool 16) : (s.setKeys keys).sp = s.sp := rfl
@[simp] theorem State.setKeys_dt (keys : Vector Bool 16) : (s.setKeys keys).dt = s.dt := rfl
@[simp] theorem State.setKeys_st (keys : Vector Bool 16) : (s.setKeys keys).st = s.st := rfl
@[simp] theorem State.setKeys_key (keys : Vector Bool 16) : (s.setKeys keys).key = keys := rfl
@[simp] theorem State.setKeys_fb (keys : Vector Bool 16) : (s.setKeys keys).fb = s.fb := rfl
@[simp] theorem State.setKeys_opcode (keys : Vector Bool 16) : (s.setKeys keys).opcode = s.opcode := rfl
@[simp] theorem State.setKeys_fault (keys : Vector Bool 16) : (s.setKeys keys).fault = s.fault := rfl
@[simp] theorem State.setKeys_draws (keys : Vector Bool 16) : (s.setKeys keys).draws = s.draws := rfl
@[simp] theorem State.setKeys_getV (keys : Vector Bool 16) (r : Nibble) : (s.setKeys keys).getV r = s.getV r := rfl
@[simp] theorem State.setKeys_pixel (keys : Vector Bool 16) (i : Fin 32) (j : Fin 64) : (s.setKeys keys).pixel i j = s.pixel i j := rfl

/-! ## skipIf -/

/-- A skip changes pc alone. -/
theorem State.skipIf_eq (c : Bool) : s.skipIf c = s.setPc (if c then s.pc + 2#16 else s.pc) := by
  cases c <;> rfl

/-! ## Reading what was written -/

/-- A register written and read again. -/
theorem State.getV_setV (x r : Nibble) (b : Byte) : (s.setV x b).getV r = if r = x then b else s.getV r := by
  by_cases h : r = x
  · subst h; simp [State.getV]
  · have hne : x.toNat ≠ r.toNat := fun e => h (BitVec.eq_of_toNat_eq e.symm)
    simp [State.getV, h, hne]

@[simp] theorem State.getV_setV_self (x : Nibble) (b : Byte) : (s.setV x b).getV x = b := by
  simp [State.getV_setV]

/-- A register other than the one written keeps its value. -/
theorem State.getV_setV_ne {x r : Nibble} (b : Byte) (h : r ≠ x) : (s.setV x b).getV r = s.getV r := by
  simp [State.getV_setV, h]

/-- A pixel written and read again. -/
theorem State.pixel_setPixel (row i : Fin 32) (col j : Fin 64) (p : Bool) :
    (s.setPixel row col p).pixel i j = if i = row ∧ j = col then p else s.pixel i j := by
  by_cases hi : i = row
  · subst hi
    by_cases hj : j = col
    · subst hj; simp [State.pixel]
    · have hne : col.val ≠ j.val := fun e => hj (Fin.ext e.symm)
      simp [State.pixel, hj, hne]
  · have hne : row.val ≠ i.val := fun e => hi (Fin.ext e.symm)
    simp [State.pixel, hi, hne]

/-- Every pixel of a cleared framebuffer is clear. -/
@[simp] theorem State.clearPixels_pixel (i : Fin 32) (j : Fin 64) : s.clearPixels.pixel i j = false := by
  simp [State.pixel]

end Sys2Proof.Machine
end

