-- ==== Sys2Proof/Laws/Ops.lean ====
section
/-!
SUPPORT. One law for each shared operation, which says once what it does: the range check, the checked accesses, the
register load, the draw, the key lookups, the fetch and the end of a step.
-/

namespace Sys2Proof.Machine

/-! ## The range check (R53, R54) -/

/-- An access inside the address space finds no bad address. -/
theorem firstOutOfRange_none {base n : Nat} (h : n = 0 ∨ base + n ≤ Config.memSize) :
    firstOutOfRange base n = none := by
  simp only [firstOutOfRange, effectiveAddrs, List.find?_eq_none, List.mem_map, List.mem_range,
    decide_eq_true_eq]
  rintro a ⟨j, hj, rfl⟩
  rcases h with rfl | h <;> omega

/-- The first bad address of a counted scan that starts in or past the address space. -/
theorem find?_range_outside (base n : Nat) (hn : 0 < n) (h : Config.memSize < base + n) :
    (List.range n).find? (fun j => decide (Config.memSize ≤ base + j)) = some (lowestOutside base - base) := by
  rw [List.find?_range_eq_some]
  simp only [lowestOutside, Config.memSize_eq] at h ⊢
  refine ⟨?_, ?_, ?_⟩
  · split <;> simp <;> omega
  · simp only [List.mem_range]; split <;> omega
  · intro j hj
    split at hj <;> simp <;> omega

/-- An access that leaves the address space reports its lowest bad address. -/
theorem firstOutOfRange_some {base n : Nat} (hn : 0 < n) (h : Config.memSize < base + n) :
    firstOutOfRange base n = some (lowestOutside base) := by
  have hle : base ≤ lowestOutside base := by simp only [lowestOutside]; split <;> omega
  simp only [firstOutOfRange, effectiveAddrs, List.find?_map, Function.comp_def,
    find?_range_outside base n hn h, Option.map_some]
  congr 1
  omega

/-- The check in one line: bad exactly when a byte is accessed and the last one lies outside. -/
theorem firstOutOfRange_eq (base n : Nat) :
    firstOutOfRange base n =
      if n = 0 ∨ base + n ≤ Config.memSize then none else some (lowestOutside base) := by
  split
  · rename_i h; exact firstOutOfRange_none h
  · rename_i h
    rw [not_or] at h
    exact firstOutOfRange_some (by omega) (by omega)

/-! ## Checked accesses (R51–R54) -/

/-- What a checked read answers. -/
theorem State.readBytes_eq (s : State) (base n : Nat) :
    s.readBytes base n =
      if n = 0 ∨ base + n ≤ Config.memSize then .ok ((List.range n).map fun j => Memory.read s.mem (base + j))
      else .error (lowestOutside base) := by
  simp only [State.readBytes, firstOutOfRange_eq]
  by_cases h : n = 0 ∨ base + n ≤ Config.memSize
  · rw [if_pos h, if_pos h]; simp [effectiveAddrs, Function.comp_def]
  · rw [if_neg h, if_neg h]

/-- What a checked store answers. -/
theorem State.writeBytes_eq (s : State) (base : Nat) (bs : List Byte) :
    s.writeBytes base bs =
      if bs.length = 0 ∨ base + bs.length ≤ Config.memSize then
        .ok { s with mem := Memory.writeList s.mem base bs }
      else .error (lowestOutside base) := by
  simp only [State.writeBytes, firstOutOfRange_eq]
  by_cases h : bs.length = 0 ∨ base + bs.length ≤ Config.memSize
  · rw [if_pos h, if_pos h]
  · rw [if_neg h, if_neg h]

@[simp] theorem State.regsUpTo_length (s : State) (x : Nibble) : (s.regsUpTo x).length = x.toNat + 1 := by
  simp [State.regsUpTo]

@[simp] theorem decimalDigits_length (b : Byte) : (decimalDigits b).length = 3 := rfl

/-! ## Loading registers (R215) -/

/-- A register load changes the registers alone. -/
theorem State.loadRegs_eq (s : State) (i : Nat) (bs : List Byte) :
    s.loadRegs i bs = { s with v := (s.loadRegs i bs).v } := by
  induction bs generalizing s i with
  | nil => rfl
  | cons b bs ih => rw [State.loadRegs, ih]; rfl

/-- Register `i + j` receives byte `j`, and every other register keeps its value. -/
theorem State.loadRegs_getV (s : State) (i : Nat) (bs : List Byte) (h : i + bs.length ≤ 16) (r : Nibble) :
    (s.loadRegs i bs).getV r = if i ≤ r.toNat then bs[r.toNat - i]?.getD (s.getV r) else s.getV r := by
  induction bs generalizing s i with
  | nil => simp [State.loadRegs]
  | cons b bs ih =>
    simp only [List.length_cons] at h
    rw [State.loadRegs, ih _ _ (by omega), State.getV_setV]
    have hr : r = BitVec.ofNat 4 i ↔ r.toNat = i := by
      rw [← BitVec.toNat_inj, BitVec.toNat_ofNat, Nat.mod_eq_of_lt (by omega)]
    simp only [hr]
    by_cases h1 : i + 1 ≤ r.toNat
    · have hne : r.toNat ≠ i := by omega
      have hsub : r.toNat - i = (r.toNat - (i + 1)) + 1 := by omega
      simp [h1, hne, Nat.le_of_succ_le h1, hsub]
    · by_cases h2 : r.toNat = i
      · simp [h2]
      · have h3 : ¬ i ≤ r.toNat := by omega
        simp [h1, h2, h3]

/-! ## Drawing (R121) -/

/-- A drawn bit changes VF and the framebuffer alone. -/
theorem State.drawBit_eq (s : State) (row : Fin 32) (col : Fin 64) :
    s.drawBit row col = { s with v := (s.drawBit row col).v, fb := (s.drawBit row col).fb } := by
  unfold State.drawBit
  cases s.pixel row col <;> rfl

/-- A drawn row changes VF and the framebuffer alone. -/
theorem State.drawRow_eq (s : State) (row : Fin 32) (xc : Nat) (bits : Byte) :
    s.drawRow row xc bits = { s with v := (s.drawRow row xc bits).v, fb := (s.drawRow row xc bits).fb } := by
  unfold State.drawRow
  generalize List.range 8 = cs
  induction cs generalizing s with
  | nil => rfl
  | cons c cs ih =>
    rw [List.foldl_cons, ih]
    split
    · rw [State.drawBit_eq s]
    · rfl

/-- A draw changes VF and the framebuffer alone. -/
theorem State.drawRows_eq (s : State) (xc yc r : Nat) (rows : List Byte) :
    s.drawRows xc yc r rows =
      { s with v := (s.drawRows xc yc r rows).v, fb := (s.drawRows xc yc r rows).fb } := by
  induction rows generalizing s r with
  | nil => rfl
  | cons b bs ih => rw [State.drawRows, ih, State.drawRow_eq s]

/-- A drawn bit toggles its own pixel and no other. -/
theorem State.drawBit_pixel (s : State) (row i : Fin 32) (col j : Fin 64) :
    (s.drawBit row col).pixel i j = if i = row ∧ j = col then !(s.pixel row col) else s.pixel i j := by
  simp only [State.drawBit, State.pixel_setPixel]
  cases s.pixel row col <;> simp

/-- A drawn bit sets VF on a collision and otherwise writes no register. -/
theorem State.drawBit_getV (s : State) (row : Fin 32) (col : Fin 64) (r : Nibble) :
    (s.drawBit row col).getV r = if s.pixel row col = true ∧ r = vf then 1#8 else s.getV r := by
  simp only [State.drawBit, State.setPixel_getV]
  cases s.pixel row col
  · simp
  · simp [State.getV_setV]

/-! ## Keys (R240, R243) -/

/-- What a key lookup answers. -/
theorem State.keySlot_eq (s : State) (k : Byte) :
    s.keySlot k = match s.key[k.toNat]? with
      | some p => .ok p
      | none => .error k.toNat := by
  unfold State.keySlot
  by_cases h : k.toNat < 16 <;> simp [h]

/-- The scan finds a pressed key below which none is pressed, or no key is pressed. -/
theorem State.firstPressed_eq_some (s : State) (k : Nat) :
    s.firstPressed = some k ↔ s.key[k]? = some true ∧ ∀ j < k, s.key[j]? = some false := by
  unfold State.firstPressed
  rw [List.find?_range_eq_some]
  constructor
  · rintro ⟨hk, hmem, hlow⟩
    rw [List.mem_range] at hmem
    refine ⟨by simpa [hmem] using hk, fun j hj => ?_⟩
    have hj16 : j < 16 := by omega
    simpa [hj16] using hlow j hj
  · rintro ⟨hk, hlow⟩
    have hk16 : k < 16 := by
      by_contra h
      simp [h] at hk
    refine ⟨by simp [hk], by simpa using hk16, fun j hj => by simp [hlow j hj]⟩

/-- The scan finds nothing exactly when no key is pressed. -/
theorem State.firstPressed_eq_none (s : State) :
    s.firstPressed = none ↔ ∀ k : Fin 16, s.key[k.val] = false := by
  unfold State.firstPressed
  simp only [List.find?_eq_none, List.mem_range]
  constructor
  · intro h k
    simpa using h k.val k.isLt
  · intro h k hk
    simpa [hk] using h ⟨k, hk⟩

/-! ## The step around its handler (R102–R107) -/

/-- What the fetch answers. -/
theorem State.fetchWord_eq (s : State) :
    s.fetchWord =
      if s.pc.toNat + 1 < Config.memSize then
        .ok (wordOfBytes (Memory.read s.mem s.pc.toNat) (Memory.read s.mem (s.pc.toNat + 1)))
      else .error (lowestOutside s.pc.toNat) := by
  simp only [State.fetchWord, firstOutOfRange_eq]
  by_cases h : s.pc.toNat + 1 < Config.memSize
  · rw [if_pos h, if_pos (.inr (by omega))]
  · rw [if_neg h, if_neg (by omega)]

/-- The end of a step whose handler completed. -/
theorem State.finish_of_none (save : State) {t : State} (h : t.fault = none) : save.finish t = t.tick := by
  simp [State.finish, h]

/-- The end of a step whose handler raised a fault. -/
theorem State.finish_of_some (save : State) {t : State} {r : FaultRecord} (h : t.fault = some r) :
    save.finish t = { save with fault := some r } := by
  simp [State.finish, h]

/-- The timer tick as natural-number subtraction. -/
theorem countDown_toNat (t : Byte) : (countDown t).toNat = t.toNat - 1 := by
  unfold countDown
  split
  · rename_i h; simp [h]
  · rename_i h
    have : 1 ≤ t.toNat := Nat.one_le_iff_ne_zero.mpr fun e => h (BitVec.eq_of_toNat_eq (by simpa using e))
    rw [BitVec.toNat_sub_of_le (by simpa [BitVec.le_def] using this)]
    rfl

end Sys2Proof.Machine
end

