-- ==== Sys2Proof/Laws/Step.lean ====
section
/-!
SUPPORT. Everything a step can do, and everything a handler can do to the fault field: the inversion lemmas that the
claims about all steps and all instructions cite instead of unfolding `step` and `exec`.
-/

namespace Sys2Proof.Machine

/-- What a handler's outcome is like: a next state that keeps the fault field, or the instruction's own fault,
under the condition and with the info of its row, and nothing else changed (R107, R271). -/
def Handled (i : Instr) (s t : State) : Prop :=
  t.fault = s.fault ∨ ∃ c info, t = s.raise c info ∧ RaisedWith s c i info

/-- Every handler answers a next state, and its only faults are those of R271. -/
theorem exec_handled (i : Instr) (s : State) : ∃ t, exec i s = .next t ∧ Handled i s t := by
  cases i with
  | ret =>
    simp only [exec, execRet]
    split
    · exact ⟨_, rfl, .inl rfl⟩
    · exact ⟨_, rfl, .inr ⟨_, _, rfl, by simp only [RaisedWith]; omega⟩⟩
  | call nnn =>
    simp only [exec, execCall]
    split
    · exact ⟨_, rfl, .inl rfl⟩
    · have := s.sp.isLt
      exact ⟨_, rfl, .inr ⟨_, _, rfl, by simp only [RaisedWith]; omega⟩⟩
  | seImm x kk => exact ⟨_, rfl, .inl (by simp [State.skipIf_eq])⟩
  | sneImm x kk => exact ⟨_, rfl, .inl (by simp [State.skipIf_eq])⟩
  | seReg x y => exact ⟨_, rfl, .inl (by simp [State.skipIf_eq])⟩
  | sneReg x y => exact ⟨_, rfl, .inl (by simp [State.skipIf_eq])⟩
  | drw x y n =>
    simp only [exec, execDrw, State.readBytes_eq]
    by_cases h : n.toNat = 0 ∨ s.index.toNat + n.toNat ≤ Config.memSize
    · rw [if_pos h]
      exact ⟨_, rfl, .inl (by rw [State.drawRows_eq]; rfl)⟩
    · rw [if_neg h]
      exact ⟨_, rfl, .inr ⟨_, _, rfl, ⟨fun e => h (.inl e), by omega, rfl⟩⟩⟩
  | skp x =>
    simp only [exec, execSkp, State.keySlot_eq]
    by_cases h : (s.getV x).toNat < 16
    · simp only [h, Vector.getElem?_eq_getElem]
      exact ⟨_, rfl, .inl (by simp [State.skipIf_eq])⟩
    · simp only [Vector.getElem?_eq_none (Nat.le_of_not_lt h)]
      exact ⟨_, rfl, .inr ⟨_, _, rfl, ⟨by omega, rfl⟩⟩⟩
  | sknp x =>
    simp only [exec, execSknp, State.keySlot_eq]
    by_cases h : (s.getV x).toNat < 16
    · simp only [h, Vector.getElem?_eq_getElem]
      exact ⟨_, rfl, .inl (by simp [State.skipIf_eq])⟩
    · simp only [Vector.getElem?_eq_none (Nat.le_of_not_lt h)]
      exact ⟨_, rfl, .inr ⟨_, _, rfl, ⟨by omega, rfl⟩⟩⟩
  | ldVxK x =>
    simp only [exec, execLdVxK]
    split <;> exact ⟨_, rfl, .inl rfl⟩
  | ldB x =>
    simp only [exec, execLdB, State.writeBytes_eq]
    by_cases h : (decimalDigits (s.getV x)).length = 0 ∨
        s.index.toNat + (decimalDigits (s.getV x)).length ≤ Config.memSize
    · rw [if_pos h]; exact ⟨_, rfl, .inl rfl⟩
    · rw [if_neg h]; exact ⟨_, rfl, .inr ⟨_, _, rfl, ⟨by simp only [decimalDigits_length] at h; omega, rfl⟩⟩⟩
  | ldMemVx x =>
    simp only [exec, execLdMemVx, State.writeBytes_eq]
    by_cases h : (s.regsUpTo x).length = 0 ∨ s.index.toNat + (s.regsUpTo x).length ≤ Config.memSize
    · rw [if_pos h]; exact ⟨_, rfl, .inl rfl⟩
    · rw [if_neg h]; exact ⟨_, rfl, .inr ⟨_, _, rfl, ⟨by simp only [State.regsUpTo_length] at h; omega, rfl⟩⟩⟩
  | ldVxMem x =>
    simp only [exec, execLdVxMem, State.readBytes_eq]
    by_cases h : x.toNat + 1 = 0 ∨ s.index.toNat + (x.toNat + 1) ≤ Config.memSize
    · rw [if_pos h]
      exact ⟨_, rfl, .inl (by rw [State.loadRegs_eq])⟩
    · rw [if_neg h]
      exact ⟨_, rfl, .inr ⟨_, _, rfl, ⟨by omega, rfl⟩⟩⟩
  | _ => exact ⟨_, rfl, .inl rfl⟩

/-- A next state of a handler is one of the two kinds. -/
theorem handled_of_exec {i : Instr} {s t : State} (h : exec i s = .next t) : Handled i s t := by
  obtain ⟨u, hu, hk⟩ := exec_handled i s
  rw [h] at hu
  cases hu
  exact hk

/-- The step of a state that fetches `w`. -/
theorem step_of_fetches {s : State} {w : Word} (h : Fetches s w) :
    ∃ u, exec (decodeWord w) (s.latch w) = .next u ∧ step s = .next (s.finish u) := by
  obtain ⟨hf, hpc, rfl⟩ := h
  obtain ⟨u, hu, -⟩ := exec_handled
    (decodeWord (wordOfBytes (Memory.read s.mem s.pc.toNat) (Memory.read s.mem (s.pc.toNat + 1))))
    (s.latch (wordOfBytes (Memory.read s.mem s.pc.toNat) (Memory.read s.mem (s.pc.toNat + 1))))
  refine ⟨u, hu, ?_⟩
  simp only [step, hf, State.fetchWord_eq, hpc, if_true, hu]

/-- The step of a state that cannot fetch. -/
theorem step_of_fetch_fault {s : State} (hf : s.fault = none) (hpc : ¬ s.pc.toNat + 1 < Config.memSize) :
    step s = .next (s.takeFault .fetch s.pc none (lowestOutside s.pc.toNat)) := by
  simp only [step, hf, State.fetchWord_eq, if_neg hpc]

/-- Everything a step can do: without a fault, it faults in the fetch, or runs the handler of the fetched word. -/
theorem step_cases {s t : State} (h : step s = .next t) :
    s.fault = none ∧
      ((¬ s.pc.toNat + 1 < Config.memSize ∧ t = s.takeFault .fetch s.pc none (lowestOutside s.pc.toNat)) ∨
        ∃ w u, Fetches s w ∧ exec (decodeWord w) (s.latch w) = .next u ∧ t = s.finish u) := by
  cases hf : s.fault with
  | some r => simp [step, hf] at h
  | none =>
    refine ⟨rfl, ?_⟩
    by_cases hpc : s.pc.toNat + 1 < Config.memSize
    · have hw : Fetches s _ := ⟨hf, hpc, rfl⟩
      obtain ⟨u, hu, hs⟩ := step_of_fetches hw
      rw [hs] at h
      cases h
      exact .inr ⟨_, u, hw, hu, rfl⟩
    · rw [step_of_fetch_fault hf hpc] at h
      cases h
      exact .inl ⟨hpc, rfl⟩

end Sys2Proof.Machine
end

