-- ==== Sys2Proof/Laws/Claims.lean ====
section
/-!
SUPPORT. The terms of Safety: how to show a frame field by field, how to show that a row selects its instruction, and
what a completed step is.
-/

namespace Sys2Proof.Machine

/-! ## Frames -/

/-- A frame, from one statement per field and view. -/
theorem changesOnly_of_fields {s t : State} {may : Part → Prop}
    (hreg : ∀ r, ¬ may (.reg r) → t.getV r = s.getV r)
    (hbyte : ∀ a, ¬ may (.byte a) → Memory.read t.mem a = Memory.read s.mem a)
    (hindex : ¬ may .index → t.index = s.index) (hpc : ¬ may .pc → t.pc = s.pc)
    (hstack : ∀ k : Fin 16, ¬ may (.stackEntry k) → t.stack[k.val] = s.stack[k.val])
    (hsp : ¬ may .sp → t.sp = s.sp) (hdt : ¬ may .dt → t.dt = s.dt) (hst : ¬ may .st → t.st = s.st)
    (hkey : ∀ k : Fin 16, ¬ may (.keySlot k) → t.key[k.val] = s.key[k.val])
    (hpixel : ∀ i j, ¬ may (.pixel i j) → t.pixel i j = s.pixel i j)
    (hopcode : ¬ may .opcode → t.opcode = s.opcode) (hfault : ¬ may .fault → t.fault = s.fault)
    (hdraws : ¬ may .draws → t.draws = s.draws) : ChangesOnly s t may := by
  intro p hp
  cases p <;> simp only [Part.SameIn] <;> solve_by_elim

/-- A raised fault changes the fault field alone. -/
theorem State.raise_changesOnly (s : State) (cause : FaultCause) (info : Nat) {may : Part → Prop} (h : may .fault) :
    ChangesOnly s (s.raise cause info) may := by
  apply changesOnly_of_fields <;> simp [h]

/-! ## Rows -/

/-- A row of the groups decided by the high nibble selects what those words decode to. -/
theorem selects_of_op {p : Word} {b : Word → Instr} (h : ∀ w, opField w = opField p → decodeWord w = b w) :
    Selects p 0xF000#16 b :=
  fun w hw => h w (opField_of_maskF000 hw)

/-- A row of the groups 0x0, 0x8 and 0xE selects what words of its two nibbles decode to. -/
theorem selects_of_op_n {p : Word} {b : Word → Instr}
    (h : ∀ w, opField w = opField p → nField w = nField p → decodeWord w = b w) : Selects p 0xF00F#16 b :=
  fun w hw => h w (fields_of_maskF00F hw).1 (fields_of_maskF00F hw).2

/-- A row of the group 0xF selects what words of its nibble and low byte decode to. -/
theorem selects_of_op_kk {p : Word} {b : Word → Instr}
    (h : ∀ w, opField w = opField p → kkField w = kkField p → decodeWord w = b w) : Selects p 0xF0FF#16 b :=
  fun w hw => h w (fields_of_maskF0FF hw).1 (fields_of_maskF0FF hw).2

/-! ## Completed steps -/

/-- A step that ends without a fault ran its handler without a fault, and then the timers ticked. -/
theorem completed_step {s t : State} {w : Word} (hw : Fetches s w) (h : step s = .next t) (hn : t.fault = none) :
    ∃ u, exec (decodeWord w) (s.latch w) = .next u ∧ u.fault = none ∧ t = u.tick := by
  obtain ⟨u, hu, hs⟩ := step_of_fetches hw
  rw [h] at hs
  cases hs
  rcases handled_of_exec hu with he | ⟨c, info, rfl, -⟩
  · have hf : u.fault = none := by rw [he]; exact hw.1
    exact ⟨u, hu, hf, State.finish_of_none _ hf⟩
  · rw [State.finish_of_some _ rfl] at hn
    simp at hn

end Sys2Proof.Machine
end

