-- ==== Sys2Proof/Laws/Display.lean ====
section
/-!
SUPPORT. What a draw does (41_display.md R121): a sprite toggles the pixels under its set bits, at wrapped
coordinates, and sets VF exactly when a set bit falls on a set pixel.
-/

namespace Sys2Proof.Machine

/-- Eight neighbouring columns are eight pixels. -/
theorem col_injective {xc c d : Nat} (hc : c < 8) (hd : d < 8) (e : Fin.ofNat 64 (xc + c) = Fin.ofNat 64 (xc + d)) :
    c = d := by
  have e := congrArg Fin.val e
  simp only [Fin.val_ofNat] at e
  omega

/-- A counted run of columns toggles the pixels under its set bits and no other. -/
theorem State.drawCols_pixel (s : State) (row i : Fin 32) (j : Fin 64) (xc : Nat) (bits : Byte) (cs : List Nat)
    (hn : cs.Nodup) (h8 : ∀ c ∈ cs, c < 8) :
    let t := cs.foldl (fun t c => if spriteBit bits c then t.drawBit row (Fin.ofNat 64 (xc + c)) else t) s
    ((i = row ∧ ∃ c ∈ cs, spriteBit bits c = true ∧ j = Fin.ofNat 64 (xc + c)) → t.pixel i j = !s.pixel i j) ∧
    (¬ (i = row ∧ ∃ c ∈ cs, spriteBit bits c = true ∧ j = Fin.ofNat 64 (xc + c)) → t.pixel i j = s.pixel i j) := by
  induction cs generalizing s with
  | nil => simp
  | cons c cs ih =>
    rw [List.nodup_cons] at hn
    obtain ⟨h1, h2⟩ := ih (if spriteBit bits c then s.drawBit row (Fin.ofNat 64 (xc + c)) else s) hn.2
      fun d hd => h8 d (.tail _ hd)
    simp only [List.foldl_cons]
    by_cases hi : i = row
    case neg =>
      simp only [hi, false_and, not_false_iff, true_implies, false_implies, true_and] at h2 ⊢
      rw [h2]
      split <;> simp [State.drawBit_pixel, hi]
    by_cases hb : spriteBit bits c = true
    case neg => simpa [hi, hb] using And.intro h1 h2
    by_cases hj : j = Fin.ofNat 64 (xc + c)
    · have hno : ¬ ∃ d ∈ cs, spriteBit bits d = true ∧ j = Fin.ofNat 64 (xc + d) := by
        rintro ⟨d, hd, -, e⟩
        exact hn.1 (col_injective (h8 c (.head _)) (h8 d (.tail _ hd)) (hj ▸ e) ▸ hd)
      refine ⟨fun _ => ?_, fun hc => absurd ⟨hi, c, .head _, hb, hj⟩ hc⟩
      rw [h2 (fun hc => hno hc.2)]; simp [hb, State.drawBit_pixel, hi, hj]
    · simp only [hb, if_true, State.drawBit_pixel, hj, and_false, if_false] at h1 h2
      simp only [hb, if_true, List.mem_cons, exists_eq_or_imp, hj, and_false, false_or]
      exact ⟨h1, h2⟩

/-- A sprite row toggles the pixels under its set bits and no other. -/
theorem State.drawRow_pixel (s : State) (row i : Fin 32) (j : Fin 64) (xc : Nat) (bits : Byte) :
    ((i = row ∧ ∃ c, c < 8 ∧ spriteBit bits c = true ∧ j = Fin.ofNat 64 (xc + c)) →
      (s.drawRow row xc bits).pixel i j = !s.pixel i j) ∧
    (¬ (i = row ∧ ∃ c, c < 8 ∧ spriteBit bits c = true ∧ j = Fin.ofNat 64 (xc + c)) →
      (s.drawRow row xc bits).pixel i j = s.pixel i j) := by
  have h := State.drawCols_pixel s row i j xc bits (List.range 8) List.nodup_range fun c hc => List.mem_range.mp hc
  simp only [List.mem_range] at h
  exact h

/-- A sprite row writes no register but VF. -/
theorem State.drawRow_getV_ne (s : State) (row : Fin 32) (xc : Nat) (bits : Byte) {r : Nibble} (h : r ≠ vf) :
    (s.drawRow row xc bits).getV r = s.getV r := by
  unfold State.drawRow
  generalize List.range 8 = cs
  induction cs generalizing s with
  | nil => rfl
  | cons c cs ih => rw [List.foldl_cons, ih]; split <;> simp [State.drawBit_getV, h]

/-- A counted run of columns sets VF exactly when a set bit falls on a pixel that was set before. -/
theorem State.drawCols_getV_vf (s : State) (row : Fin 32) (xc : Nat) (bits : Byte) (cs : List Nat)
    (hn : cs.Nodup) (h8 : ∀ c ∈ cs, c < 8) :
    let t := cs.foldl (fun t c => if spriteBit bits c then t.drawBit row (Fin.ofNat 64 (xc + c)) else t) s
    ((∃ c ∈ cs, spriteBit bits c = true ∧ s.pixel row (Fin.ofNat 64 (xc + c)) = true) → t.getV vf = 1#8) ∧
    (¬ (∃ c ∈ cs, spriteBit bits c = true ∧ s.pixel row (Fin.ofNat 64 (xc + c)) = true) → t.getV vf = s.getV vf) := by
  induction cs generalizing s with
  | nil => simp
  | cons c cs ih =>
    rw [List.nodup_cons] at hn
    obtain ⟨h1, h2⟩ := ih (if spriteBit bits c then s.drawBit row (Fin.ofNat 64 (xc + c)) else s) hn.2
      fun d hd => h8 d (.tail _ hd)
    simp only [List.foldl_cons]
    by_cases hb : spriteBit bits c = true
    case neg => simpa [hb] using And.intro h1 h2
    have he : (∃ d ∈ cs, spriteBit bits d = true ∧
          (s.drawBit row (Fin.ofNat 64 (xc + c))).pixel row (Fin.ofNat 64 (xc + d)) = true) ↔
        ∃ d ∈ cs, spriteBit bits d = true ∧ s.pixel row (Fin.ofNat 64 (xc + d)) = true := by
      refine exists_congr fun d => and_congr_right fun hd => and_congr_right fun _ => ?_
      rw [State.drawBit_pixel, if_neg]
      rintro ⟨-, e⟩
      exact hn.1 (col_injective (h8 d (.tail _ hd)) (h8 c (.head _)) e ▸ hd)
    simp only [hb, if_true, he] at h1 h2 ⊢
    by_cases hd : ∃ d ∈ cs, spriteBit bits d = true ∧ s.pixel row (Fin.ofNat 64 (xc + d)) = true
    · exact ⟨fun _ => h1 hd, fun hc => absurd (by obtain ⟨d, hd, hx⟩ := hd; exact ⟨d, .tail _ hd, hx⟩) hc⟩
    · rw [h2 hd, State.drawBit_getV]
      by_cases hc : s.pixel row (Fin.ofNat 64 (xc + c)) = true
      · exact ⟨fun _ => if_pos ⟨hc, rfl⟩, fun hne => absurd ⟨c, .head _, hb, hc⟩ hne⟩
      · refine ⟨fun ⟨d, hm, hx⟩ => ?_, fun _ => if_neg fun h => hc h.1⟩
        cases hm with
        | head => exact absurd hx.2 hc
        | tail _ hm => exact absurd ⟨d, hm, hx⟩ hd

/-- A sprite row sets VF exactly when a set bit falls on a set pixel. -/
theorem State.drawRow_getV_vf (s : State) (row : Fin 32) (xc : Nat) (bits : Byte) :
    ((∃ c, c < 8 ∧ spriteBit bits c = true ∧ s.pixel row (Fin.ofNat 64 (xc + c)) = true) →
      (s.drawRow row xc bits).getV vf = 1#8) ∧
    (¬ (∃ c, c < 8 ∧ spriteBit bits c = true ∧ s.pixel row (Fin.ofNat 64 (xc + c)) = true) →
      (s.drawRow row xc bits).getV vf = s.getV vf) := by
  have h := State.drawCols_getV_vf s row xc bits (List.range 8) List.nodup_range fun c hc => List.mem_range.mp hc
  simp only [List.mem_range] at h
  exact h

/-- At most 32 sprite rows lie on different pixel rows. -/
theorem row_injective {yc r k l : Nat} (hk : k < 32) (hl : l < 32)
    (e : Fin.ofNat 32 (yc + (r + k)) = Fin.ofNat 32 (yc + (r + l))) : k = l := by
  have e := congrArg Fin.val e
  simp only [Fin.val_ofNat] at e
  omega

/-- A sprite toggles the pixels under its set bits and no other. -/
theorem State.drawRows_pixel (s : State) (xc yc r : Nat) (rows : List Byte) (h : rows.length ≤ 32) (i : Fin 32)
    (j : Fin 64) :
    let hit := ∃ k b, rows[k]? = some b ∧ i = Fin.ofNat 32 (yc + (r + k)) ∧
      ∃ c, c < 8 ∧ spriteBit b c = true ∧ j = Fin.ofNat 64 (xc + c)
    (hit → (s.drawRows xc yc r rows).pixel i j = !s.pixel i j) ∧
    (¬ hit → (s.drawRows xc yc r rows).pixel i j = s.pixel i j) := by
  induction rows generalizing s r with
  | nil => simp [State.drawRows]
  | cons b bs ih =>
    simp only [List.length_cons] at h
    obtain ⟨h1, h2⟩ := ih (s.drawRow (Fin.ofNat 32 (yc + r)) xc b) (r + 1) (by omega)
    obtain ⟨g1, g2⟩ := s.drawRow_pixel (Fin.ofNat 32 (yc + r)) i j xc b
    refine ⟨?_, fun hn => ?_⟩
    · rintro ⟨k, b', hk, hi, hc⟩
      cases k with
      | zero =>
        cases hk
        rw [State.drawRows, h2, g1 ⟨hi, hc⟩]
        rintro ⟨l, b', hl, hi', -⟩
        have hl : l < bs.length := (List.getElem?_eq_some_iff.mp hl).1
        have := row_injective (yc := yc) (r := r) (k := 0) (l := l + 1) (by omega) (by omega)
          (by rw [show r + (l + 1) = r + 1 + l by omega, ← hi', hi])
        omega
      | succ k =>
        have hi' : i = Fin.ofNat 32 (yc + (r + 1 + k)) := by rw [hi, show r + 1 + k = r + (k + 1) by omega]
        rw [State.drawRows, h1 ⟨k, b', hk, hi', hc⟩, g2]
        rintro ⟨hi0, -⟩
        have hk : k < bs.length := (List.getElem?_eq_some_iff.mp (by simpa using hk)).1
        have := row_injective (yc := yc) (r := r) (k := 0) (l := k + 1) (by omega) (by omega) (hi0.symm.trans hi)
        omega
    · rw [State.drawRows, h2, g2]
      · rintro ⟨hi, hc⟩; exact hn ⟨0, b, rfl, hi, hc⟩
      · rintro ⟨k, b', hk, hi, hc⟩
        exact hn ⟨k + 1, b', hk, by rw [hi, show r + 1 + k = r + (k + 1) by omega], hc⟩

/-- A sprite writes no register but VF. -/
theorem State.drawRows_getV_ne (s : State) (xc yc r : Nat) (rows : List Byte) {q : Nibble} (h : q ≠ vf) :
    (s.drawRows xc yc r rows).getV q = s.getV q := by
  induction rows generalizing s r with
  | nil => rfl
  | cons b bs ih => rw [State.drawRows, ih, State.drawRow_getV_ne _ _ _ _ h]

/-- A sprite sets VF exactly when a set bit falls on a pixel that was set before the draw. -/
theorem State.drawRows_getV_vf (s : State) (xc yc r : Nat) (rows : List Byte) (h : rows.length ≤ 32) :
    let collision := ∃ k b, rows[k]? = some b ∧ ∃ c, c < 8 ∧ spriteBit b c = true ∧
      s.pixel (Fin.ofNat 32 (yc + (r + k))) (Fin.ofNat 64 (xc + c)) = true
    (collision → (s.drawRows xc yc r rows).getV vf = 1#8) ∧
    (¬ collision → (s.drawRows xc yc r rows).getV vf = s.getV vf) := by
  induction rows generalizing s r with
  | nil => simp [State.drawRows]
  | cons b bs ih =>
    simp only [List.length_cons] at h
    obtain ⟨h1, h2⟩ := ih (s.drawRow (Fin.ofNat 32 (yc + r)) xc b) (r + 1) (by omega)
    obtain ⟨g1, g2⟩ := s.drawRow_getV_vf (Fin.ofNat 32 (yc + r)) xc b
    have same : ∀ k, k < bs.length → ∀ j,
        (s.drawRow (Fin.ofNat 32 (yc + r)) xc b).pixel (Fin.ofNat 32 (yc + (r + 1 + k))) j =
          s.pixel (Fin.ofNat 32 (yc + (r + (k + 1)))) j := by
      intro k hk j
      rw [(s.drawRow_pixel _ _ _ _ _).2, show r + 1 + k = r + (k + 1) by omega]
      rintro ⟨e, -⟩
      rw [show r + 1 + k = r + (k + 1) by omega] at e
      have := row_injective (yc := yc) (r := r) (k := k + 1) (l := 0) (by omega) (by omega) e
      omega
    rw [State.drawRows]
    refine ⟨?_, fun hn => ?_⟩
    · rintro ⟨k, b', hk, c, hc, hb, hp⟩
      by_cases hex : ∃ k b', bs[k]? = some b' ∧ ∃ c, c < 8 ∧ spriteBit b' c = true ∧
        (s.drawRow (Fin.ofNat 32 (yc + r)) xc b).pixel (Fin.ofNat 32 (yc + (r + 1 + k))) (Fin.ofNat 64 (xc + c)) = true
      · exact h1 hex
      · rw [h2 hex]
        cases k with
        | zero => cases hk; exact g1 ⟨c, hc, hb, hp⟩
        | succ k =>
          have hk' : bs[k]? = some b' := by simpa using hk
          exact absurd ⟨k, b', hk', c, hc, hb, by rw [same k (List.getElem?_eq_some_iff.mp hk').1]; exact hp⟩ hex
    · rw [h2, g2]
      · rintro ⟨c, hc, hb, hp⟩; exact hn ⟨0, b, rfl, c, hc, hb, hp⟩
      · rintro ⟨k, b', hk, c, hc, hb, hp⟩
        rw [same k (List.getElem?_eq_some_iff.mp hk).1] at hp
        exact hn ⟨k + 1, b', hk, c, hc, hb, hp⟩

end Sys2Proof.Machine
end

