-- ==== Sys2Proof/Laws/PerInstr.lean ====
section
/-!
SUPPORT. The family EncodeGroup: every instruction's canonical word lies in the dispatch group of its row of
30_encoding.md R77, and NOP's in one of the four groups that have unpopulated slots (R78).
-/

namespace Sys2Proof.Laws.EncodeGroup

/-- R77's "group" column: the high nibbles an instruction's words may have. -/
def groups : Instr → List Nibble
  | .cls => [0x0#4]
  | .ret => [0x0#4]
  | .jp _ => [0x1#4]
  | .call _ => [0x2#4]
  | .seImm _ _ => [0x3#4]
  | .sneImm _ _ => [0x4#4]
  | .seReg _ _ => [0x5#4]
  | .ldImm _ _ => [0x6#4]
  | .addImm _ _ => [0x7#4]
  | .ldReg _ _ => [0x8#4]
  | .orReg _ _ => [0x8#4]
  | .andReg _ _ => [0x8#4]
  | .xorReg _ _ => [0x8#4]
  | .addReg _ _ => [0x8#4]
  | .subReg _ _ => [0x8#4]
  | .shr _ => [0x8#4]
  | .subnReg _ _ => [0x8#4]
  | .shl _ => [0x8#4]
  | .sneReg _ _ => [0x9#4]
  | .ldI _ => [0xA#4]
  | .jpV0 _ => [0xB#4]
  | .rnd _ _ => [0xC#4]
  | .drw _ _ _ => [0xD#4]
  | .skp _ => [0xE#4]
  | .sknp _ => [0xE#4]
  | .ldVxDt _ => [0xF#4]
  | .ldVxK _ => [0xF#4]
  | .ldDtVx _ => [0xF#4]
  | .ldStVx _ => [0xF#4]
  | .addI _ => [0xF#4]
  | .ldF _ => [0xF#4]
  | .ldB _ => [0xF#4]
  | .ldMemVx _ => [0xF#4]
  | .ldVxMem _ => [0xF#4]
  | .nop _ => [0x0#4, 0x8#4, 0xE#4, 0xF#4]

/-- A well-formed instruction's word has a high nibble of its row. -/
def Statement (i : Instr) : Prop := i.WellFormed → opField (encodeWord i) ∈ groups i

theorem cls : Statement (.cls) := by
  intro _; decide

theorem ret : Statement (.ret) := by
  intro _; decide

theorem jp (nnn : Addr) : Statement (.jp nnn) := by
  intro _; simp [encodeWord, groups]

theorem call (nnn : Addr) : Statement (.call nnn) := by
  intro _; simp [encodeWord, groups]

theorem seImm (x : Nibble) (kk : Byte) : Statement (.seImm x kk) := by
  intro _; simp [encodeWord, groups]

theorem sneImm (x : Nibble) (kk : Byte) : Statement (.sneImm x kk) := by
  intro _; simp [encodeWord, groups]

theorem seReg (x : Nibble) (y : Nibble) : Statement (.seReg x y) := by
  intro _; simp [encodeWord, groups]

theorem ldImm (x : Nibble) (kk : Byte) : Statement (.ldImm x kk) := by
  intro _; simp [encodeWord, groups]

theorem addImm (x : Nibble) (kk : Byte) : Statement (.addImm x kk) := by
  intro _; simp [encodeWord, groups]

theorem ldReg (x : Nibble) (y : Nibble) : Statement (.ldReg x y) := by
  intro _; simp [encodeWord, groups]

theorem orReg (x : Nibble) (y : Nibble) : Statement (.orReg x y) := by
  intro _; simp [encodeWord, groups]

theorem andReg (x : Nibble) (y : Nibble) : Statement (.andReg x y) := by
  intro _; simp [encodeWord, groups]

theorem xorReg (x : Nibble) (y : Nibble) : Statement (.xorReg x y) := by
  intro _; simp [encodeWord, groups]

theorem addReg (x : Nibble) (y : Nibble) : Statement (.addReg x y) := by
  intro _; simp [encodeWord, groups]

theorem subReg (x : Nibble) (y : Nibble) : Statement (.subReg x y) := by
  intro _; simp [encodeWord, groups]

theorem shr (x : Nibble) : Statement (.shr x) := by
  intro _; simp [encodeWord, groups]

theorem subnReg (x : Nibble) (y : Nibble) : Statement (.subnReg x y) := by
  intro _; simp [encodeWord, groups]

theorem shl (x : Nibble) : Statement (.shl x) := by
  intro _; simp [encodeWord, groups]

theorem sneReg (x : Nibble) (y : Nibble) : Statement (.sneReg x y) := by
  intro _; simp [encodeWord, groups]

theorem ldI (nnn : Addr) : Statement (.ldI nnn) := by
  intro _; simp [encodeWord, groups]

theorem jpV0 (nnn : Addr) : Statement (.jpV0 nnn) := by
  intro _; simp [encodeWord, groups]

theorem rnd (x : Nibble) (kk : Byte) : Statement (.rnd x kk) := by
  intro _; simp [encodeWord, groups]

theorem drw (x : Nibble) (y : Nibble) (n : Nibble) : Statement (.drw x y n) := by
  intro _; simp [encodeWord, groups]

theorem skp (x : Nibble) : Statement (.skp x) := by
  intro _; simp [encodeWord, groups]

theorem sknp (x : Nibble) : Statement (.sknp x) := by
  intro _; simp [encodeWord, groups]

theorem ldVxDt (x : Nibble) : Statement (.ldVxDt x) := by
  intro _; simp [encodeWord, groups]

theorem ldVxK (x : Nibble) : Statement (.ldVxK x) := by
  intro _; simp [encodeWord, groups]

theorem ldDtVx (x : Nibble) : Statement (.ldDtVx x) := by
  intro _; simp [encodeWord, groups]

theorem ldStVx (x : Nibble) : Statement (.ldStVx x) := by
  intro _; simp [encodeWord, groups]

theorem addI (x : Nibble) : Statement (.addI x) := by
  intro _; simp [encodeWord, groups]

theorem ldF (x : Nibble) : Statement (.ldF x) := by
  intro _; simp [encodeWord, groups]

theorem ldB (x : Nibble) : Statement (.ldB x) := by
  intro _; simp [encodeWord, groups]

theorem ldMemVx (x : Nibble) : Statement (.ldMemVx x) := by
  intro _; simp [encodeWord, groups]

theorem ldVxMem (x : Nibble) : Statement (.ldVxMem x) := by
  intro _; simp [encodeWord, groups]

/-- An unpopulated word lies in group 0, 8, E or F. -/
theorem nop (w : Word) : Statement (.nop w) := by
  intro h
  have hop := opField_toNat w
  have hg : w.toNat / 4096 = 0 ∨ w.toNat / 4096 = 8 ∨ w.toNat / 4096 = 14 ∨ w.toNat / 4096 = 15 := by
    simp only [Instr.WellFormed, Instr.wellFormed, unpopulated, Bool.or_eq_true, Bool.and_eq_true, beq_iff_eq] at h
    omega
  simp only [encodeWord, groups, List.mem_cons, List.not_mem_nil, or_false, ← BitVec.toNat_inj, hop]
  simpa using hg

end Sys2Proof.Laws.EncodeGroup
end

