-- ==== Sys2Proof/Tests/Slice0.lean ====
section
/-!
SUPPORT. Tests: the check of well-formedness, a word of every instruction written out from 30_encoding.md R77, one or
two single steps of every instruction with the results of 95_test_vectors.md, and, for every statement that has
hypotheses, a state and operands that meet them, one for each clause at the edge of its range.
-/

namespace Sys2Proof.Tests

open Machine

/-! ## Helpers -/

/-- The reset state with a word at 0x200, where it fetches. -/
def fetching (word : Nat) : State := State.reset.withFetchWord 16 word

/-- A register set on the way. -/
def set (s : State) (x : Nibble) (b : Byte) : State := s.setV x b

/-- Bytes set in memory. -/
def store (s : State) (a : Nat) (bs : List Byte) : State := { s with mem := Memory.writeList s.mem a bs }

/-- A stack with one frame, which returns to 0x204, below entries that hold `dead`. -/
def oneFrame (dead : Word) : Vector Word 16 := (Vector.replicate 16 dead).set 0 0x204#16

/-- Keys pressed. -/
def press (s : State) (keys : List Nat) : State := { s with key := Vector.ofFn fun k => keys.contains k.val }

/-- The step answers a next state that passes the check. -/
def stepGives (s : State) (check : State → Bool) : Bool :=
  match step s with
  | .next t => check t
  | .fault _ => false
  | .refused _ => false

/-- The step raises this fault and leaves pc where it was. -/
def stepFaults (s : State) (cause : FaultCause) (word : Option Word) (info : Nat) : Bool :=
  stepGives s fun t => t.fault == some ⟨cause, s.pc, word, info⟩ && t.pc == s.pc && t.dt == s.dt

/-- The step stops on this record. -/
def stepStuckOn (s : State) (r : FaultRecord) : Bool :=
  match step s with
  | .fault (.stuck q) => q == r
  | .next _ | .refused _ => false

/-! ## Well-formedness: NOP with a word of a populated slot is no instruction -/

theorem test_wellFormed_refuses_populated_slots :
    ¬ Instr.WellFormed (.nop 0x1234#16) ∧ ¬ Instr.WellFormed (.nop 0x0000#16) ∧
      ¬ Instr.WellFormed (.nop 0xF365#16) := by
  decide

theorem test_wellFormed_accepts_unpopulated_slots :
    Instr.WellFormed (.nop 0x00E1#16) ∧ Instr.WellFormed (.nop 0x800F#16) ∧ Instr.WellFormed (.nop 0xE500#16) ∧
      Instr.WellFormed (.nop 0xF0FF#16) := by
  decide

theorem test_wellFormed_accepts_every_other :
    Instr.WellFormed .cls ∧ Instr.WellFormed (.drw 0xF#4 0xF#4 0#4) ∧ Instr.WellFormed (.jp 0xFFF#12) := by
  decide

/-! ## Decoding: a word of every row, bit by bit from R77 and R71 -/

theorem test_decode_cls : decodeWord 0b0000_0000_1110_0000#16 = .cls := by decide

theorem test_decode_ret : decodeWord 0b0000_0000_1110_1110#16 = .ret := by decide

theorem test_decode_jp : decodeWord 0b0001_0010_0011_0100#16 = .jp 0x234#12 := by decide

theorem test_decode_call : decodeWord 0b0010_0011_0000_0000#16 = .call 0x300#12 := by decide

theorem test_decode_seImm : decodeWord 0b0011_0011_0100_0010#16 = .seImm 3#4 0x42#8 := by decide

theorem test_decode_sneImm : decodeWord 0b0100_0011_0100_0010#16 = .sneImm 3#4 0x42#8 := by decide

theorem test_decode_seReg : decodeWord 0b0101_0001_0010_1111#16 = .seReg 1#4 2#4 := by decide

theorem test_decode_ldImm : decodeWord 0b0110_1010_0010_1111#16 = .ldImm 0xA#4 0x2F#8 := by decide

theorem test_decode_addImm : decodeWord 0b0111_0001_0010_0000#16 = .addImm 1#4 0x20#8 := by decide

theorem test_decode_ldReg : decodeWord 0b1000_0001_0010_0000#16 = .ldReg 1#4 2#4 := by decide

theorem test_decode_orReg : decodeWord 0b1000_0001_0010_0001#16 = .orReg 1#4 2#4 := by decide

theorem test_decode_andReg : decodeWord 0b1000_0001_0010_0010#16 = .andReg 1#4 2#4 := by decide

theorem test_decode_xorReg : decodeWord 0b1000_0001_0010_0011#16 = .xorReg 1#4 2#4 := by decide

theorem test_decode_addReg : decodeWord 0b1000_0001_0010_0100#16 = .addReg 1#4 2#4 := by decide

theorem test_decode_subReg : decodeWord 0b1000_0001_0010_0101#16 = .subReg 1#4 2#4 := by decide

theorem test_decode_shr : decodeWord 0b1000_0001_1111_0110#16 = .shr 1#4 := by decide

theorem test_decode_subnReg : decodeWord 0b1000_0001_0010_0111#16 = .subnReg 1#4 2#4 := by decide

theorem test_decode_shl : decodeWord 0b1000_0001_1010_1110#16 = .shl 1#4 := by decide

theorem test_decode_sneReg : decodeWord 0b1001_0001_0010_0111#16 = .sneReg 1#4 2#4 := by decide

theorem test_decode_ldI : decodeWord 0b1010_0010_1111_0000#16 = .ldI 0x2F0#12 := by decide

theorem test_decode_jpV0 : decodeWord 0b1011_0011_0000_0000#16 = .jpV0 0x300#12 := by decide

theorem test_decode_rnd : decodeWord 0b1100_0011_0000_1111#16 = .rnd 3#4 0x0F#8 := by decide

theorem test_decode_drw : decodeWord 0b1101_0001_0010_0011#16 = .drw 1#4 2#4 3#4 := by decide

theorem test_decode_skp : decodeWord 0b1110_0100_1001_1110#16 = .skp 4#4 := by decide

theorem test_decode_sknp : decodeWord 0b1110_0100_1010_0001#16 = .sknp 4#4 := by decide

theorem test_decode_ldVxDt : decodeWord 0b1111_0011_0000_0111#16 = .ldVxDt 3#4 := by decide

theorem test_decode_ldVxK : decodeWord 0b1111_0101_0000_1010#16 = .ldVxK 5#4 := by decide

theorem test_decode_ldDtVx : decodeWord 0b1111_0001_0001_0101#16 = .ldDtVx 1#4 := by decide

theorem test_decode_ldStVx : decodeWord 0b1111_0001_0001_1000#16 = .ldStVx 1#4 := by decide

theorem test_decode_addI : decodeWord 0b1111_0101_0001_1110#16 = .addI 5#4 := by decide

theorem test_decode_ldF : decodeWord 0b1111_0010_0010_1001#16 = .ldF 2#4 := by decide

theorem test_decode_ldB : decodeWord 0b1111_0111_0011_0011#16 = .ldB 7#4 := by decide

theorem test_decode_ldMemVx : decodeWord 0b1111_0010_0101_0101#16 = .ldMemVx 2#4 := by decide

theorem test_decode_ldVxMem : decodeWord 0b1111_0001_0110_0101#16 = .ldVxMem 1#4 := by decide

theorem test_decode_nop : decodeWord 0b1000_0000_0000_1000#16 = .nop 0x8008#16 := by decide

/-- Words of R79. -/
theorem test_decode_aliases :
    decodeWord 0x0000#16 = .cls ∧ decodeWord 0x012E#16 = .ret ∧ decodeWord 0xE50E#16 = .skp 5#4 ∧
      decodeWord 0xE501#16 = .sknp 5#4 := by
  decide

/-- The first byte is the most significant one (R55), and the rest is left. -/
theorem test_decode_first_byte_is_high : decode [0x12#8, 0x34#8, 0x56#8] = .ok (.jp 0x234#12, [0x56#8]) := by decide

theorem test_decode_truncated : decode [0x12#8] = .error .truncated := by decide

/-- The canonical words of R77, high byte first. -/
theorem test_encode_cls_ret : encode .cls = [0x00#8, 0xE0#8] ∧ encode .ret = [0x00#8, 0xEE#8] := by decide

/-! ## The cycle (V5, V8, V11, V12, V98) -/

/-- V5. -/
theorem test_step_nop_ticks :
    stepGives { fetching 0xF0FF with dt := 1#8, st := 1#8 }
      (fun t => t.pc == 0x202#16 && t.dt == 0#8 && t.st == 0#8) = true := by
  decide

/-- V12. -/
theorem test_step_nop_no_tick_below_zero :
    stepGives (fetching 0x8008) (fun t => t.pc == 0x202#16 && t.dt == 0#8 && t.st == 0#8) = true := by
  decide

/-- V8. -/
theorem test_step_odd_pc :
    stepGives (store { State.reset with pc := 0x201#16 } 0x201 [0x61#8, 0x05#8])
      (fun t => t.pc == 0x203#16 && t.getV 1#4 == 5#8 && t.opcode == 0x6105#16) = true := by
  decide

/-- V11. -/
theorem test_step_stuck :
    stepStuckOn { State.reset with fault := some ⟨.stackUnderflow, 0x200#16, some 0x00EE#16, 0⟩ } ⟨.stackUnderflow,
      0x200#16, some 0x00EE#16, 0⟩ = true := by
  decide

/-- V98. -/
theorem test_step_empty_memory_is_cls :
    stepGives State.reset (fun t => t.pc == 0x202#16 && t.fault == none && t.opcode == 0#16) = true := by
  decide

/-! ## Display (V2, V16, V18, P3) -/

/-- V2. -/
theorem test_step_cls :
    stepGives (({ fetching 0x0120 with pc := 0x200#16 } : State).setPixel 31 63 true)
      (fun t => t.pc == 0x202#16 && !t.pixel 31 63) = true := by
  decide

/-- V16 and V18: x is VF before its reset, and the second bit collides. -/
theorem test_step_drw_collision_at_old_vf :
    stepGives ((set (store { fetching 0xDF11 with index := 0x300#16 } 0x300 [0xC0#8]) vf 10#8).setPixel 0 11 true)
      (fun t => t.pixel 0 10 && !t.pixel 0 11 && t.getV vf == 1#8) = true := by
  decide

/-- P3, step 4. -/
theorem test_step_drw_wraps :
    stepGives (set (set (store { fetching 0xD012 with index := 0x300#16 } 0x300 [0xFF#8, 0x81#8]) 0#4 60#8) 1#4
      31#8) (fun t => t.pixel 31 63 && t.pixel 31 0 && t.pixel 0 60 && t.pixel 0 3 && !t.pixel 0 61 &&
      t.getV vf == 0#8) = true := by
  decide

/-! ## Control flow (V20 to V33) -/

/-- V24. -/
theorem test_step_ret :
    stepGives { fetching 0x00EE with sp := 1, stack := oneFrame 0#16 }
      (fun t => t.sp == 0 && t.pc == 0x204#16 && t.stack[0] == 0x204#16) = true := by
  decide

/-- V20. -/
theorem test_step_jp : stepGives (fetching 0x1234) (fun t => t.pc == 0x234#16) = true := by decide

/-- V22, at 0x200. -/
theorem test_step_call :
    stepGives (fetching 0x2300) (fun t => t.stack[0] == 0x202#16 && t.sp == 1 && t.pc == 0x300#16) = true := by
  decide

/-- V25. -/
theorem test_step_seImm : stepGives (set (fetching 0x3342) 3#4 0x42#8) (fun t => t.pc == 0x204#16) = true := by decide

/-- V25. -/
theorem test_step_seImm_not :
    stepGives (set (fetching 0x3342) 3#4 0x41#8) (fun t => t.pc == 0x202#16) = true := by
  decide

/-- V26. -/
theorem test_step_sneImm :
    stepGives (set (fetching 0x4342) 3#4 0x41#8) (fun t => t.pc == 0x204#16) = true := by
  decide

/-- V27. -/
theorem test_step_seReg :
    stepGives (set (set (fetching 0x5121) 1#4 4#8) 2#4 4#8) (fun t => t.pc == 0x204#16) = true := by
  decide

/-- V28. -/
theorem test_step_sneReg :
    stepGives (set (set (fetching 0x9120) 1#4 7#8) 2#4 8#8) (fun t => t.pc == 0x204#16) = true := by
  decide

/-- V28. -/
theorem test_step_sneReg_not :
    stepGives (set (set (fetching 0x9120) 1#4 7#8) 2#4 7#8) (fun t => t.pc == 0x202#16) = true := by
  decide

/-- V30. -/
theorem test_step_jpV0_past_the_end :
    stepGives (set (fetching 0xBFFF) 0#4 0xFF#8) (fun t => t.pc == 0x10FE#16 && t.fault == none) = true := by
  decide

/-- V29. -/
theorem test_step_jpV0_not_vx :
    stepGives (set (set (fetching 0xB300) 0#4 0x10#8) 3#4 0x77#8) (fun t => t.pc == 0x310#16) = true := by
  decide

/-! ## Registers and ALU (V34 to V62) -/

/-- V34. -/
theorem test_step_ldImm : stepGives (fetching 0x6A2F) (fun t => t.getV 0xA#4 == 0x2F#8) = true := by decide

/-- V35. -/
theorem test_step_addImm :
    stepGives (set (set (fetching 0x7120) 1#4 0xF0#8) vf 0x55#8)
      (fun t => t.getV 1#4 == 0x10#8 && t.getV vf == 0x55#8) = true := by
  decide

/-- V36. -/
theorem test_step_addImm_vf :
    stepGives (set (fetching 0x7F01) vf 0xFF#8) (fun t => t.getV vf == 0x00#8) = true := by
  decide

/-- V37. -/
theorem test_step_ldReg :
    stepGives (set (fetching 0x8120) 2#4 0x09#8) (fun t => t.getV 1#4 == 0x09#8) = true := by
  decide

/-- V38. -/
theorem test_step_orReg :
    stepGives (set (set (set (fetching 0x8121) 1#4 0x01#8) 2#4 0x02#8) vf 0x77#8)
      (fun t => t.getV 1#4 == 0x03#8 && t.getV vf == 0x77#8) = true := by
  decide

/-- V39. -/
theorem test_step_andReg :
    stepGives (set (set (fetching 0x8122) 1#4 0x0C#8) 2#4 0x0A#8) (fun t => t.getV 1#4 == 0x08#8) = true := by
  decide

/-- V40. -/
theorem test_step_xorReg :
    stepGives (set (set (fetching 0x8123) 1#4 0x0C#8) 2#4 0x0A#8) (fun t => t.getV 1#4 == 0x06#8) = true := by
  decide

/-- V41. -/
theorem test_step_addReg_carry :
    stepGives (set (set (fetching 0x8124) 1#4 0xC8#8) 2#4 0x64#8)
      (fun t => t.getV 1#4 == 0x2C#8 && t.getV vf == 0x01#8) = true := by
  decide

/-- V42. -/
theorem test_step_addReg_vf :
    stepGives (set (set (fetching 0x8F14) vf 0xF0#8) 1#4 0x20#8) (fun t => t.getV vf == 0x10#8) = true := by
  decide

/-- V45. -/
theorem test_step_subReg_borrow :
    stepGives (set (set (fetching 0x8125) 1#4 0x03#8) 2#4 0x0A#8)
      (fun t => t.getV 1#4 == 0xF9#8 && t.getV vf == 0x00#8) = true := by
  decide

/-- V47. -/
theorem test_step_subReg_vf_is_x :
    stepGives (set (set (fetching 0x8F15) vf 0x05#8) 1#4 0x03#8) (fun t => t.getV vf == 0xFE#8) = true := by
  decide

/-- R178: field y plays no part. -/
theorem test_step_shr :
    stepGives (set (set (fetching 0x8126) 1#4 0x81#8) 2#4 0x02#8)
      (fun t => t.getV 1#4 == 0x40#8 && t.getV vf == 0x01#8) = true := by
  decide

/-- V52. -/
theorem test_step_shr_vf :
    stepGives (set (fetching 0x8F06) vf 0x03#8) (fun t => t.getV vf == 0x00#8) = true := by
  decide

/-- V53. -/
theorem test_step_subnReg :
    stepGives (set (set (fetching 0x8127) 1#4 0x03#8) 2#4 0x0A#8)
      (fun t => t.getV 1#4 == 0x07#8 && t.getV vf == 0x01#8) = true := by
  decide

/-- V54. -/
theorem test_step_subnReg_vf_is_y :
    stepGives (set (set (fetching 0x81F7) 1#4 0x03#8) vf 0x05#8)
      (fun t => t.getV 1#4 == 0xFE#8 && t.getV vf == 0x01#8) = true := by
  decide

/-- V56. -/
theorem test_step_shl :
    stepGives (set (fetching 0x810E) 1#4 0x81#8) (fun t => t.getV 1#4 == 0x02#8 && t.getV vf == 0x01#8) = true := by
  decide

/-- V58. -/
theorem test_step_shl_vf :
    stepGives (set (fetching 0x8F0E) vf 0x80#8) (fun t => t.getV vf == 0x02#8) = true := by
  decide

/-- V61: kk = 0 gives 0, for every random byte. -/
theorem test_step_rnd_zero : ∃ t, exec (.rnd 3#4 0#8) (fetching 0xC300) = .next t ∧ t.getV 3#4 = 0#8 :=
  ⟨_, rfl, by simp⟩

/-- V60: the first draw of a run is ANDed with kk. -/
theorem test_step_rnd_masks : ∃ t, exec (.rnd 3#4 0x0F#8) (fetching 0xC30F) = .next t ∧
    t.getV 3#4 = Config.randomByte 0 &&& 0x0F#8 ∧ t.draws = 1 :=
  ⟨_, rfl, rfl, rfl⟩

/-! ## Index register and memory (V63 to V78) -/

/-- V63. -/
theorem test_step_ldI : stepGives (fetching 0xA2F0) (fun t => t.index == 0x2F0#16) = true := by decide

/-- V65. -/
theorem test_step_addI_wraps_without_flag :
    stepGives (set (set { fetching 0xF01E with index := 0xFFFF#16 } 0#4 2#8) vf 0x33#8)
      (fun t => t.index == 1#16 && t.getV vf == 0x33#8) = true := by
  decide

/-- V68: the value is not reduced to a digit. -/
theorem test_step_ldF : glyphAddr 0xFF#8 = BitVec.ofNat 16 (Config.fontBase.val + 1275) := rfl

/-- V69. -/
theorem test_step_ldB :
    stepGives (set { fetching 0xF733 with index := 0x300#16 } 7#4 156#8)
      (fun t => [0x300, 0x301, 0x302].map (Memory.read t.mem) == [1#8, 5#8, 6#8]) = true := by
  decide

/-- V73. -/
theorem test_step_ldMemVx :
    stepGives (set (set (set (set { fetching 0xF255 with index := 0x300#16 } 0#4 1#8) 1#4 2#8) 2#4 3#8) 3#4 4#8)
      (fun t => [0x300, 0x301, 0x302, 0x303].map (Memory.read t.mem) == [1#8, 2#8, 3#8, 0#8] &&
      t.index == 0x300#16) = true := by
  decide

/-- V76. -/
theorem test_step_ldVxMem :
    stepGives (store { fetching 0xF165 with index := 0x300#16 } 0x300 [0xAA#8, 0xBB#8, 0xCC#8])
      (fun t => t.getV 0#4 == 0xAA#8 && t.getV 1#4 == 0xBB#8 && t.getV 2#4 == 0#8 && t.index == 0x300#16) = true := by
  decide

/-! ## Keypad and timers (V79 to V93) -/

/-- V79. -/
theorem test_step_skp :
    stepGives (press (set (fetching 0xE49E) 4#4 7#8) [7]) (fun t => t.pc == 0x204#16) = true := by
  decide

/-- V81. -/
theorem test_step_sknp : stepGives (set (fetching 0xE4A1) 4#4 7#8) (fun t => t.pc == 0x204#16) = true := by decide

/-- V82. -/
theorem test_step_sknp_pressed :
    stepGives (press (set (fetching 0xE0A1) 0#4 2#8) [2]) (fun t => t.pc == 0x202#16) = true := by
  decide

/-- V85. -/
theorem test_step_ldVxDt :
    stepGives { fetching 0xF307 with dt := 0x10#8 } (fun t => t.getV 3#4 == 0x10#8 && t.dt == 0x0F#8) = true := by
  decide

/-- V87 at 0x200, and P6. -/
theorem test_step_ldVxK_waits :
    stepGives { fetching 0xF50A with dt := 5#8 }
      (fun t => t.pc == 0x200#16 && t.getV 5#4 == 0#8 && t.dt == 4#8) = true := by
  decide

/-- V89. -/
theorem test_step_ldVxK :
    stepGives (press (fetching 0xFF0A) [0xC, 5, 0xF]) (fun t => t.pc == 0x202#16 && t.getV vf == 5#8) = true := by
  decide

/-- V90. -/
theorem test_step_ldDtVx : stepGives (set (fetching 0xF115) 1#4 0x3C#8) (fun t => t.dt == 0x3B#8) = true := by decide

/-- V92. -/
theorem test_step_ldStVx :
    stepGives (set { fetching 0xF118 with st := 4#8 } 1#4 2#8) (fun t => t.st == 1#8) = true := by
  decide

/-- V93. -/
theorem test_step_ldStVx_zero :
    stepGives { fetching 0xF118 with st := 4#8 } (fun t => t.st == 0#8) = true := by
  decide

/-! ## Faults (V9, V10, V14, V15, V23, V33, V72, V74, V78, V84) -/

/-- V9. -/
theorem test_step_fetch_fault_last_byte :
    stepFaults { State.reset with pc := 0xFFF#16 } .fetch none 0x1000 = true := by
  decide

/-- V10. -/
theorem test_step_fetch_fault_outside :
    stepFaults { State.reset with pc := 0x1000#16 } .fetch none 0x1000 = true := by
  decide

/-- V15 and V14. -/
theorem test_step_drw_faults_unless_no_rows :
    stepFaults { fetching 0xD012 with index := 0xFFF#16, dt := 5#8 } .memRead (some 0xD012#16) 0x1000 = true ∧
      stepGives (set { fetching 0xD010 with index := 0xFFF#16 } vf 9#8)
      (fun t => t.fault == none && t.getV vf == 0#8) = true := by
  decide

/-- V33. -/
theorem test_step_ret_faults :
    stepFaults { fetching 0x00EE with dt := 5#8 } .stackUnderflow (some 0x00EE#16) 0 = true := by
  decide

/-- V23. -/
theorem test_step_call_faults :
    stepFaults { fetching 0x2400 with sp := 16 } .stackOverflow (some 0x2400#16) 16 = true := by
  decide

/-- V72. -/
theorem test_step_ldB_faults :
    stepFaults (set { fetching 0xF033 with index := 0xFFE#16 } 0#4 255#8) .memWrite (some 0xF033#16) 0x1000 = true
      := by
  decide

/-- V74. -/
theorem test_step_ldMemVx_faults :
    stepFaults { fetching 0xFF55 with index := 0xFF8#16 } .memWrite (some 0xFF55#16) 0x1000 = true := by
  decide

/-- V78. -/
theorem test_step_ldVxMem_faults :
    stepFaults { fetching 0xF165 with index := 0xFFF#16 } .memRead (some 0xF165#16) 0x1000 = true := by
  decide

/-- V84. -/
theorem test_step_skp_faults :
    stepFaults (set (fetching 0xE09E) 0#4 0x10#8) .keyIndex (some 0xE09E#16) 0x10 = true := by
  decide

/-! ## Load (V95, V96) -/

/-- V97: a byte of 0 is as the reset contents are, so no cell lists it. -/
theorem test_load_small : (State.reset.load [0x12#8, 0x00#8]).2.mem = [(0x200, 0x12#8)] := by decide

/-- V95. -/
theorem test_load_largest (image : List Byte) (h : image.length = 3584) : (State.reset.load image).1 = .loaded := by
  rw [State.load, if_neg (by rw [h]; decide)]

/-- V96. -/
theorem test_load_too_large (image : List Byte) (h : image.length = 3585) :
    State.reset.load image = (.romTooLarge, State.reset) := by
  rw [State.load, if_pos (by rw [h]; decide)]

/-! ## Witnesses: states and operands that meet the hypotheses of the statements -/

theorem test_witness_DecodeOfEncode :
    Instr.WellFormed (.nop 0xFFFF#16) ∧ Instr.WellFormed (.drw 0xF#4 0xF#4 0xF#4) := by
  decide

/-- Every row has words: its pattern, and its pattern with every free bit set. -/
theorem test_witness_Selects :
    opcodeRows.all (fun r => r.selects r.pattern && r.selects (r.pattern ||| ~~~r.mask)) = true := by
  decide

theorem test_witness_Unpopulated :
    unpopulated 0x0001#16 = true ∧ unpopulated 0xFFFF#16 = true ∧ unpopulated 0x0000#16 = false ∧
      unpopulated 0xF065#16 = false := by
  decide

theorem test_witness_StepRuns :
    (fetching 0x7120).fault = none ∧ (fetching 0x7120).pc.toNat + 1 < 4096 ∧
      0x71#8 = Memory.read (fetching 0x7120).mem 0x200 ∧ 0x20#8 = Memory.read (fetching 0x7120).mem 0x201 ∧
      decode [0x71#8, 0x20#8] = .ok (.addImm 1#4 0x20#8, []) := by
  decide

theorem test_witness_StepRuns_faulting :
    (fetching 0x00EE).fault = none ∧ (fetching 0x00EE).pc.toNat + 1 < 4096 ∧
      0x00#8 = Memory.read (fetching 0x00EE).mem 0x200 ∧ 0xEE#8 = Memory.read (fetching 0x00EE).mem 0x201 ∧
      decode [0x00#8, 0xEE#8] = .ok (.ret, []) := by
  decide

theorem test_witness_Fetch_edges :
    ({ State.reset with pc := 0xFFE#16 } : State).fault = none ∧ (0xFFE#16).toNat + 1 < 4096 ∧
      (0xFFF#16).toNat = 0xFFF ∧ 0x1000 ≤ (0x1000#16).toNat ∧ 0x1000 ≤ (0xFFFF#16).toNat := by
  decide

theorem test_witness_FaultedCore :
    ({ State.reset with fault := some ⟨.fetch, 0xFFF#16, none, 0x1000⟩ } : State).fault = some ⟨.fetch, 0xFFF#16,
      none, 0x1000⟩ := by
  decide

/-- For FaultingStepChangesOnlyTheRecord, FaultRecordsAreAsTheSpecSays and the second clause of
OpcodeLatchIsNeverSeen. -/
theorem test_witness_FaultingStep :
    ∃ t r, step (fetching 0x00EE) = .next t ∧ t.fault = some r :=
  ⟨_, ⟨.stackUnderflow, 0x200#16, some 0x00EE#16, 0⟩, rfl, by decide⟩

/-- For the clause of FaultRecordsAreAsTheSpecSays without a word. -/
theorem test_witness_FaultingFetch :
    ∃ t r, step { State.reset with pc := 0xFFF#16 } = .next t ∧ t.fault = some r ∧ r.word = none :=
  ⟨_, ⟨.fetch, 0xFFF#16, none, 0x1000⟩, rfl, by decide, rfl⟩

/-- For TimersTickOncePerCompletedStep, PcAfterEveryInstruction, SoundTimerIsNeverRead and OpcodeLatchIsNeverSeen. -/
theorem test_witness_CompletedStep :
    ∃ t, Fetches (fetching 0xF115) 0xF115#16 ∧ step (fetching 0xF115) = .next t ∧ t.fault = none :=
  ⟨_, ⟨rfl, by decide, by decide⟩, rfl, by decide⟩

theorem test_witness_CompletedCall :
    ∃ t, Fetches (fetching 0x2300) 0x2300#16 ∧ step (fetching 0x2300) = .next t ∧ t.fault = none ∧
      decodeWord 0x2300#16 = .call 0x300#12 :=
  ⟨_, ⟨rfl, by decide, by decide⟩, rfl, by decide, by decide⟩

/-- For OnlyTheTableWritesRegisters and EveryInstructionKeepsItsFrame. -/
theorem test_witness_WritesARegister :
    ∃ t, exec (.ldVxK 1#4) (press State.reset [15]) = .next t ∧ t.getV 1#4 ≠ (press State.reset [15]).getV 1#4 :=
  ⟨_, rfl, by decide⟩

/-- The entries above sp = 1 differ, and the step pops entry 0. -/
theorem test_witness_DeadStack :
    ∃ t, (∀ k : Fin 16, k.val < ({ fetching 0x00EE with sp := 1 } : State).sp.val → (oneFrame 7#16)[k.val] =
      (oneFrame 0#16)[k.val]) ∧ step { fetching 0x00EE with sp := 1, stack := oneFrame 0#16 } = .next t :=
  ⟨_, by decide, rfl⟩

/-- A step that stores three bytes. -/
theorem test_witness_Invariant :
    ∃ t, Inv { fetching 0xF733 with index := 0x300#16 } ∧ step { fetching 0xF733 with index := 0x300#16 } = .next t :=
  ⟨_, ⟨by decide, fun r h => absurd (show none = some r from h) (by simp)⟩, rfl⟩

theorem test_witness_Invariant_faulting :
    ∃ t r, Inv (fetching 0x00EE) ∧ step (fetching 0x00EE) = .next t ∧ t.fault = some r :=
  ⟨_, ⟨.stackUnderflow, 0x200#16, some 0x00EE#16, 0⟩,
    ⟨by decide, fun r h => absurd (show none = some r from h) (by simp)⟩, rfl, by decide⟩

/-- P6: two steps of a waiting Fx0A, then a key. -/
theorem test_witness_Run :
    ∃ t, (State.reset.boot [0xF5#8, 0x0A#8]).2.session [(press State.reset []).key, (press State.reset [9]).key] =
      .next t :=
  ⟨_, rfl⟩

/-- The first, second and third clauses at 4095 and 4096; the fourth with the first bad address inside the access
and at its start. -/
theorem test_witness_MemoryAccess_edges :
    4095 < 4096 ∧ Memory.wf State.reset.mem = true ∧ (4094 ≤ 4096 ∧ 4096 < 4094 + 3 ∧
      ∀ b, b < 4096 → 4094 ≤ b → b < 4096) ∧ (4097 ≤ 4097 ∧ 4097 < 4097 + 1 ∧ ∀ b, b < 4097 → 4097 ≤ b → b < 4096) :=
  ⟨by decide, by decide, ⟨by decide, by decide, fun _ h _ => h⟩, by decide, by decide, fun _ h1 h2 => by omega⟩

theorem test_witness_Load_edges :
    Memory.wf State.reset.mem = true ∧ (∃ image : List Byte, image.length = 3584) ∧
      ∃ image : List Byte, image.length = 3585 :=
  ⟨by decide, ⟨List.replicate _ 1#8, List.length_replicate⟩, List.replicate _ 1#8, List.length_replicate⟩

/-- No rows whatever I is; the last byte at 0xFFF; one row more. -/
theorem test_witness_Drw_edges :
    ((0#4).toNat = 0 ∨ (0xFFFF#16).toNat + (0#4).toNat ≤ 4096) ∧
      ((2#4).toNat = 0 ∨ (0xFFE#16).toNat + (2#4).toNat ≤ 4096) ∧ ((2#4).toNat ≠ 0 ∧
      4096 < (0xFFF#16).toNat + (2#4).toNat) := by
  decide

theorem test_witness_Drw_collision :
    ∃ r c : Nat, r < (1#4).toNat ∧ c < 8 ∧ (Memory.read (store State.reset 0x300 [0x40#8]).mem (0x300 + r)).getLsbD
      (7 - c) = true ∧ (State.reset.setPixel 0 1 true).pixel (Fin.ofNat 32 (0 + r)) (Fin.ofNat 64 (0 + c)) = true :=
  ⟨0, 1, by decide⟩

theorem test_witness_Drw_no_collision :
    ¬ ∃ r c : Nat, r < (1#4).toNat ∧ c < 8 ∧ (Memory.read (store State.reset 0x300 [0x40#8]).mem (0x300 +
      r)).getLsbD (7 - c) = true ∧ State.reset.pixel (Fin.ofNat 32 (0 + r)) (Fin.ofNat 64 (0 + c)) = true := by
  simp [State.pixel, State.reset]

theorem test_witness_DrwTwice :
    0#4 ≠ vf ∧ 1#4 ≠ vf ∧ ((2#4).toNat = 0 ∨ (0xFFE#16).toNat + (2#4).toNat ≤ 4096) := by
  decide

theorem test_witness_Ret_edges : (1 : Fin 17).val ≠ 0 ∧ (16 : Fin 17).val ≠ 0 ∧ State.reset.sp.val = 0 := by decide

theorem test_witness_Call_edges :
    State.reset.sp.val ≠ 16 ∧ (15 : Fin 17).val ≠ 16 ∧ (16 : Fin 17).val = 16 := by
  decide

/-- The deepest call, the highest target, and there a return by the alias 0x012E. -/
def callAtTheEdge : State := store { fetching 0x2FFE with sp := 15 } 0xFFE [0x01#8, 0x2E#8]

theorem test_witness_ReturnComesBack :
    Fetches (callAtTheEdge) 0x2FFE#16 ∧ decodeWord 0x2FFE#16 = .call 0xFFE#12 ∧ callAtTheEdge.sp.val < 16 ∧
      (0xFFE#12).toNat + 1 < 4096 ∧ decodeWord (wordOfBytes (Memory.read callAtTheEdge.mem 0xFFE) (Memory.read
      callAtTheEdge.mem 0xFFF)) = .ret :=
  ⟨⟨by decide, by decide, by decide⟩, by decide⟩

theorem test_witness_NopFetched :
    Fetches (fetching 0x8008) 0x8008#16 ∧ unpopulated 0x8008#16 = true := ⟨⟨rfl, by decide, by decide⟩, by decide⟩

/-- The four clauses of SUB and SUBN, and the two of ADD, SHR and SHL. -/
theorem test_witness_FlagOperands :
    (1#4 ≠ vf ∧ 2#4 ≠ vf) ∧ (1#4 ≠ vf ∧ 0xF#4 = vf) ∧ (0xF#4 = vf ∧ 1#4 ≠ vf) ∧ (0xF#4 = vf ∧ 0xF#4 = vf) := by
  decide

theorem test_witness_LdB_edges :
    (0xFFD#16).toNat + 2 < 4096 ∧ Memory.wf (fetching 0xF033).mem = true ∧ 4096 ≤ (0xFFE#16).toNat + 2 ∧
      4096 ≤ (0x1000#16).toNat + 2 := by
  decide

/-- For StoreRegisters and LoadRegisters. -/
theorem test_witness_StoreLoad_edges :
    (0xFF0#16).toNat + (0xF#4).toNat < 4096 ∧ (0xFFF#16).toNat + (0#4).toNat < 4096 ∧
      Memory.wf (fetching 0xFF55).mem = true ∧ 4096 ≤ (0xFF1#16).toNat + (0xF#4).toNat ∧
      4096 ≤ (0x1000#16).toNat + (0#4).toNat := by
  decide

theorem test_witness_Key_edges :
    ((set State.reset 1#4 15#8).getV 1#4).toNat = (15 : Fin 16).val ∧
      (State.reset.getV 1#4).toNat = (0 : Fin 16).val ∧ 15 < ((set State.reset 1#4 16#8).getV 1#4).toNat := by
  decide

theorem test_witness_LdKey_pressed :
    (press State.reset [15]).key[(15 : Fin 16).val] = true ∧ (∀ j : Fin 16, j < 15 → (press State.reset
      [15]).key[j.val] = false) ∧ (press State.reset [0, 3]).key[(0 : Fin 16).val] = true := by
  decide

theorem test_witness_LdKey_none :
    (∀ k : Fin 16, (fetching 0xF50A).key[k.val] = false) ∧ Fetches (fetching 0xF50A) 0xF50A#16 ∧
      0xF50A#16 &&& 0xF0FF#16 = 0xF00A#16 :=
  ⟨by decide, ⟨rfl, by decide, by decide⟩, by decide⟩

theorem test_witness_TimerInstructions :
    (Fetches (fetching 0xF307) 0xF307#16 ∧ 0xF307#16 &&& 0xF0FF#16 = 0xF007#16) ∧
      (Fetches (fetching 0xF115) 0xF115#16 ∧ 0xF115#16 &&& 0xF0FF#16 = 0xF015#16) ∧
      (Fetches (fetching 0xF118) 0xF118#16 ∧ 0xF118#16 &&& 0xF0FF#16 = 0xF018#16) :=
  ⟨⟨⟨rfl, by decide, by decide⟩, by decide⟩, ⟨⟨rfl, by decide, by decide⟩, by decide⟩, ⟨rfl, by decide, by decide⟩,
      by decide⟩

/-- An address past the font, for the third clause of ResetStateIsTheTable. -/
theorem test_witness_Reset_table :
    (511 < 4096 ∧ Config.fontBase.val + 80 ≤ 511 + 1) ∧ 0x200 < 4096 ∧ Config.fontBase.val + 80 ≤ 0x200 := by
  have := Config.fontBase.isLt
  omega

end Sys2Proof.Tests
end

section
/-!
SUPPORT. The statements of the family 10_state.md: the reset table (R39); the frame of every handler (R22, R27,
R31–R37, R50) and what follows from it for the registers, pc and the opcode latch; and the two parts of the state that
no handler can see, ST (R34) and the stack entries at or above sp (R31).
-/

namespace Sys2Proof.Machine

/-! ## The reset state (R39) -/

/-- The reset contents hold FONT_DATA from FONT_BASE on. -/
theorem Memory.unlisted_font (j : Fin 80) :
    Memory.unlisted (Config.fontBase.val + j.val) = Config.fontData[j.val] := by
  have hb := Config.fontBase.isLt
  have hlow : Config.fontBase.val + j.val < 512 := by omega
  simp [Memory.unlisted, hlow]

/-- The reset contents are 0 outside the font. -/
theorem Memory.unlisted_outside_font {a : Nat} (h : a < Config.fontBase.val ∨ Config.fontBase.val + 80 ≤ a) :
    Memory.unlisted a = 0#8 := by
  have hout : ¬ (Config.fontBase.val ≤ a ∧ a - Config.fontBase.val < Config.fontSize) := by
    rw [Config.fontSize_eq]; omega
  rw [Memory.unlisted, dif_neg hout, ite_self]

/-- Settles O22: the reset memory lists nothing, and there is no record. -/
theorem resetMeetsTheInvariant : Obligations.ResetMeetsTheInvariant :=
  ⟨Memory.wf_reset, fun _ h => nomatch h⟩

/-- Settles O25: the reset memory reads as the reset contents everywhere, and every other field is a constant. -/
theorem resetStateIsTheTable : Obligations.ResetStateIsTheTable := by
  refine ⟨?registers, Memory.unlisted_font, fun _ _ => Memory.unlisted_outside_font, rfl, rfl, ?stack, rfl, rfl, rfl,
    ?keys, ?pixels, rfl, rfl⟩
  all_goals simp [State.reset, State.getV, State.pixel]

/-! ## The frame of each operation on the state -/

section Frames

variable (s : State) {may : Part → Prop}

/-- Frames compose. -/
theorem changesOnly_trans {t u : State} (hst : ChangesOnly s t may) (htu : ChangesOnly t u may) :
    ChangesOnly s u may := by
  intro p hp
  have h1 := hst p hp
  have h2 := htu p hp
  cases p <;> exact h2.trans h1

theorem changesOnly_refl : ChangesOnly s s may := by
  intro p _
  cases p <;> rfl

theorem State.setV_changesOnly (x : Nibble) (b : Byte) (h : may (.reg x)) : ChangesOnly s (s.setV x b) may := by
  apply changesOnly_of_fields
  · intro r hr
    exact s.getV_setV_ne b fun e => hr (e ▸ h)
  all_goals simp

theorem State.setIndex_changesOnly (w : Word) (h : may .index) : ChangesOnly s (s.setIndex w) may := by
  apply changesOnly_of_fields <;> simp [h]

theorem State.setPc_changesOnly (w : Word) (h : may .pc) : ChangesOnly s (s.setPc w) may := by
  apply changesOnly_of_fields <;> simp [h]

theorem State.skipIf_changesOnly (c : Bool) (h : may .pc) : ChangesOnly s (s.skipIf c) may := by
  rw [State.skipIf_eq]
  exact s.setPc_changesOnly _ h

/-- A push writes the entry at sp, and sp. -/
theorem State.push_changesOnly (w : Word) (hlt : s.sp.val < 16) (hentry : may (.stackEntry ⟨s.sp.val, hlt⟩))
    (hsp : may .sp) : ChangesOnly s (s.push w hlt) may := by
  apply changesOnly_of_fields
  case hstack =>
    intro k hk
    have hne : s.sp.val ≠ k.val := by rintro e; simp only [e] at hentry; exact hk hentry
    simp [hne]
  all_goals simp [hsp]

theorem State.popPc_changesOnly (hpos : 0 < s.sp.val) (hpc : may .pc) (hsp : may .sp) :
    ChangesOnly s (s.popPc hpos) may := by
  apply changesOnly_of_fields <;> simp [hpc, hsp]

theorem State.setDt_changesOnly (b : Byte) (h : may .dt) : ChangesOnly s (s.setDt b) may := by
  apply changesOnly_of_fields <;> simp [h]

theorem State.setSt_changesOnly (b : Byte) (h : may .st) : ChangesOnly s (s.setSt b) may := by
  apply changesOnly_of_fields <;> simp [h]

theorem State.countDraw_changesOnly (h : may .draws) : ChangesOnly s s.countDraw may := by
  apply changesOnly_of_fields <;> simp [h]

theorem State.clearPixels_changesOnly (h : ∀ i j, may (.pixel i j)) : ChangesOnly s s.clearPixels may := by
  apply changesOnly_of_fields <;> simp [h]

/-- A draw writes VF and the pixels. -/
theorem State.drawRows_changesOnly (xc yc r : Nat) (rows : List Byte) (hvf : may (.reg vf))
    (hpixel : ∀ i j, may (.pixel i j)) : ChangesOnly s (s.drawRows xc yc r rows) may := by
  apply changesOnly_of_fields
  case hreg =>
    intro q hq
    exact s.drawRows_getV_ne xc yc r rows fun e => hq (e ▸ hvf)
  all_goals rw [State.drawRows_eq]; simp [hpixel]

/-- A checked store writes the bytes it covers. -/
theorem State.writeBytes_changesOnly {t : State} {base : Nat} {bs : List Byte} (hw : s.writeBytes base bs = .ok t)
    (h : ∀ a, base ≤ a → a < base + bs.length → may (.byte a)) : ChangesOnly s t may := by
  rw [State.writeBytes_eq] at hw
  split at hw
  · cases hw
    apply changesOnly_of_fields
    case hbyte =>
      intro a ha
      refine Memory.read_writeList_other s.mem base bs a ?_
      by_contra hin
      exact ha (h a (by omega) (by omega))
    all_goals intros; rfl
  · cases hw

/-- A checked read answers as many bytes as were asked for. -/
theorem State.readBytes_length {base n : Nat} {bs : List Byte} (hr : s.readBytes base n = .ok bs) :
    bs.length = n := by
  rw [State.readBytes_eq] at hr
  split at hr
  · cases hr; simp
  · cases hr

/-- A load of the first registers writes no others. -/
theorem State.loadRegs_changesOnly (bs : List Byte) (h16 : bs.length ≤ 16)
    (h : ∀ r : Nibble, r.toNat < bs.length → may (.reg r)) : ChangesOnly s (s.loadRegs 0 bs) may := by
  apply changesOnly_of_fields
  case hreg =>
    intro r hr
    have hge : bs.length ≤ r.toNat := Nat.le_of_not_lt fun hlt => hr (h r hlt)
    simp [State.loadRegs_getV s 0 bs (by omega), hge]
  all_goals rw [State.loadRegs_eq]; intros; rfl

end Frames

/-! ## The frame of every handler (R22, R27, R31–R37, R50, R271) -/

/-- The flag instructions write VF and then Vx. -/
theorem State.setV_setV_changesOnly (s : State) (x : Nibble) (f b : Byte) {may : Part → Prop} (hvf : may (.reg vf))
    (hx : may (.reg x)) : ChangesOnly s ((s.setV vf f).setV x b) may :=
  changesOnly_trans s (s.setV_changesOnly vf f hvf) (State.setV_changesOnly _ x b hx)

/-- What Fx33 and Fx55 share: a checked store at I, or a MemWriteFault with the lowest bad address (R213, R214). -/
def State.storeOrRaise (s : State) (bs : List Byte) : Host.Outcome State Fault Refusal :=
  match s.writeBytes s.index.toNat bs with
  | .error a => .next (s.raise .memWrite a)
  | .ok t => .next t

theorem exec_ldB (x : Nibble) (s : State) : exec (.ldB x) s = s.storeOrRaise (decimalDigits (s.getV x)) := rfl

theorem exec_ldMemVx (x : Nibble) (s : State) : exec (.ldMemVx x) s = s.storeOrRaise (s.regsUpTo x) := rfl

theorem State.storeOrRaise_frame (s : State) (bs : List Byte) {may : Part → Prop} (hfault : may .fault)
    (hbyte : ∀ a, s.index.toNat ≤ a → a < s.index.toNat + bs.length → may (.byte a)) :
    ∃ t, s.storeOrRaise bs = .next t ∧ ChangesOnly s t may := by
  unfold State.storeOrRaise
  split
  case h_1 => exact ⟨_, rfl, s.raise_changesOnly _ _ hfault⟩
  case h_2 hw => exact ⟨_, rfl, s.writeBytes_changesOnly hw hbyte⟩

/-- Every handler answers a next state within its instruction's frame. -/
theorem exec_frame (i : Instr) (s : State) : ∃ t, exec i s = .next t ∧ ChangesOnly s t (WritesPart i s) := by
  cases i with
  | cls => exact ⟨_, rfl, s.clearPixels_changesOnly fun _ _ => trivial⟩
  | ret =>
    simp only [exec, execRet]
    split
    · exact ⟨_, rfl, s.popPc_changesOnly _ trivial trivial⟩
    · exact ⟨_, rfl, s.raise_changesOnly _ _ trivial⟩
  | jp nnn => exact ⟨_, rfl, s.setPc_changesOnly _ trivial⟩
  | call nnn =>
    simp only [exec, execCall]
    split
    · exact ⟨_, rfl, changesOnly_trans s (s.push_changesOnly _ _ rfl trivial) (State.setPc_changesOnly _ _ trivial)⟩
    · exact ⟨_, rfl, s.raise_changesOnly _ _ trivial⟩
  | seImm x kk => exact ⟨_, rfl, s.skipIf_changesOnly _ trivial⟩
  | sneImm x kk => exact ⟨_, rfl, s.skipIf_changesOnly _ trivial⟩
  | seReg x y => exact ⟨_, rfl, s.skipIf_changesOnly _ trivial⟩
  | sneReg x y => exact ⟨_, rfl, s.skipIf_changesOnly _ trivial⟩
  | ldImm x kk => exact ⟨_, rfl, s.setV_changesOnly x _ rfl⟩
  | addImm x kk => exact ⟨_, rfl, s.setV_changesOnly x _ rfl⟩
  | ldReg x y => exact ⟨_, rfl, s.setV_changesOnly x _ rfl⟩
  | orReg x y => exact ⟨_, rfl, s.setV_changesOnly x _ rfl⟩
  | andReg x y => exact ⟨_, rfl, s.setV_changesOnly x _ rfl⟩
  | xorReg x y => exact ⟨_, rfl, s.setV_changesOnly x _ rfl⟩
  | addReg x y => exact ⟨_, rfl, s.setV_setV_changesOnly x _ _ (.inl rfl) (.inr rfl)⟩
  | subReg x y => exact ⟨_, rfl, s.setV_setV_changesOnly x _ _ (.inl rfl) (.inr rfl)⟩
  | shr x => exact ⟨_, rfl, s.setV_setV_changesOnly x _ _ (.inl rfl) (.inr rfl)⟩
  | subnReg x y => exact ⟨_, rfl, s.setV_setV_changesOnly x _ _ (.inl rfl) (.inr rfl)⟩
  | shl x => exact ⟨_, rfl, s.setV_setV_changesOnly x _ _ (.inl rfl) (.inr rfl)⟩
  | ldI nnn => exact ⟨_, rfl, s.setIndex_changesOnly _ trivial⟩
  | jpV0 nnn => exact ⟨_, rfl, s.setPc_changesOnly _ trivial⟩
  | rnd x kk =>
    exact ⟨_, rfl, changesOnly_trans s (s.countDraw_changesOnly trivial) (State.setV_changesOnly _ x _ rfl)⟩
  | drw x y n =>
    simp only [exec, execDrw]
    split
    · exact ⟨_, rfl, s.raise_changesOnly _ _ trivial⟩
    · exact ⟨_, rfl, changesOnly_trans s (s.setV_changesOnly vf _ rfl)
        (State.drawRows_changesOnly _ _ _ _ _ rfl fun _ _ => trivial)⟩
  | skp x =>
    simp only [exec, execSkp]
    split
    · exact ⟨_, rfl, s.raise_changesOnly _ _ trivial⟩
    · exact ⟨_, rfl, s.skipIf_changesOnly _ trivial⟩
  | sknp x =>
    simp only [exec, execSknp]
    split
    · exact ⟨_, rfl, s.raise_changesOnly _ _ trivial⟩
    · exact ⟨_, rfl, s.skipIf_changesOnly _ trivial⟩
  | ldVxDt x => exact ⟨_, rfl, s.setV_changesOnly x _ rfl⟩
  | ldVxK x =>
    simp only [exec, execLdVxK]
    split
    · exact ⟨_, rfl, s.setV_changesOnly x _ rfl⟩
    · exact ⟨_, rfl, s.setPc_changesOnly _ trivial⟩
  | ldDtVx x => exact ⟨_, rfl, s.setDt_changesOnly _ trivial⟩
  | ldStVx x => exact ⟨_, rfl, s.setSt_changesOnly _ trivial⟩
  | addI x => exact ⟨_, rfl, s.setIndex_changesOnly _ trivial⟩
  | ldF x => exact ⟨_, rfl, s.setIndex_changesOnly _ trivial⟩
  | ldB x =>
    rw [exec_ldB]
    exact s.storeOrRaise_frame _ trivial fun a hlo hhi => ⟨hlo, hhi⟩
  | ldMemVx x =>
    rw [exec_ldMemVx]
    refine s.storeOrRaise_frame _ trivial fun a hlo hhi => ⟨hlo, ?_⟩
    rw [State.regsUpTo_length] at hhi
    omega
  | ldVxMem x =>
    simp only [exec, execLdVxMem]
    split
    case h_1 => exact ⟨_, rfl, s.raise_changesOnly _ _ trivial⟩
    case h_2 bs hr =>
      have hlen : bs.length = x.toNat + 1 := s.readBytes_length hr
      have hx := x.isLt
      refine ⟨_, rfl, s.loadRegs_changesOnly bs (by omega) fun r hlt => ?_⟩
      show r.toNat ≤ x.toNat
      omega
  | nop w => exact ⟨_, rfl, changesOnly_refl s⟩

/-- A next state of a handler lies within its instruction's frame. -/
theorem frame_of_exec {i : Instr} {s t : State} (h : exec i s = .next t) : ChangesOnly s t (WritesPart i s) := by
  obtain ⟨u, hu, hframe⟩ := exec_frame i s
  rw [h] at hu
  cases hu
  exact hframe

/-- Settles O17, by the frame of the operations that each handler is made of. -/
theorem everyInstructionKeepsItsFrame : Obligations.EveryInstructionKeepsItsFrame :=
  fun _ _ _ => frame_of_exec

/-! ## Registers (R22) -/

/-- A found key is a pressed one. -/
theorem State.exists_pressed_of_firstPressed {s : State} {k : Nat} (h : s.firstPressed = some k) :
    ∃ k : Fin 16, s.key[k.val] = true := by
  obtain ⟨hlt, hk⟩ := Vector.getElem?_eq_some_iff.mp ((s.firstPressed_eq_some k).mp h).1
  exact ⟨⟨k, hlt⟩, hk⟩

/-- Settles O16: R22's table is the register part of the frame, and a waiting Fx0A writes pc alone. -/
theorem onlyTheTableWritesRegisters : Obligations.OnlyTheTableWritesRegisters := by
  intro i s t r h hne
  constructor
  · by_contra hw
    exact hne (frame_of_exec h (.reg r) hw)
  · rintro x rfl
    cases hp : s.firstPressed with
    | some k => exact State.exists_pressed_of_firstPressed hp
    | none =>
      simp only [exec, execLdVxK, hp] at h
      cases h
      exact absurd rfl hne

/-! ## pc (R30) -/

/-- A skip from A + 2 ends at A + 4. -/
theorem State.skipIf_latch_pc (s : State) (w : Word) (c : Bool) :
    ((s.latch w).skipIf c).pc = if c = true then s.pc + 4#16 else s.pc + 2#16 := by
  cases c <;> simp [State.skipIf_eq, BitVec.add_assoc]

theorem zextAddr_eq (nnn : Addr) : zextAddr nnn = BitVec.ofNat 16 nnn.toNat :=
  (BitVec.ofNat_toNat 16 nnn).symm

theorem indexedTarget_eq (nnn : Addr) (b : Byte) :
    indexedTarget nnn b = BitVec.ofNat 16 (nnn.toNat + b.toNat) := by
  rw [BitVec.ofNat_add, BitVec.ofNat_toNat, BitVec.ofNat_toNat]
  rfl

/-- The handler of an instruction at A, started at A + 2, leaves pc as R30's table says unless it raises a fault. -/
theorem exec_pc {i : Instr} {s u : State} {w : Word} (h : exec i (s.latch w) = .next u) (hf : u.fault = none) :
    u.pc = pcAfterStep s i := by
  cases i with
  | ret =>
    simp only [exec, execRet] at h
    split at h
    case isTrue hpos =>
      cases h
      have hlt : s.sp.val - 1 < 16 := by omega
      simp [pcAfterStep, State.topEntry, hlt]
    case isFalse => cases h; simp at hf
  | jp nnn => cases h; exact zextAddr_eq nnn
  | call nnn =>
    simp only [exec, execCall] at h
    split at h
    case isTrue => cases h; exact zextAddr_eq nnn
    case isFalse => cases h; simp at hf
  | jpV0 nnn => cases h; exact indexedTarget_eq nnn _
  | seImm x kk => cases h; simp [State.skipIf_latch_pc, pcAfterStep]
  | sneImm x kk => cases h; simp [State.skipIf_latch_pc, pcAfterStep]
  | seReg x y => cases h; simp [State.skipIf_latch_pc, pcAfterStep]
  | sneReg x y => cases h; simp [State.skipIf_latch_pc, pcAfterStep]
  | skp x =>
    simp only [exec, execSkp, State.keySlot_eq, State.latch_getV, State.latch_key] at h
    cases hk : s.key[(s.getV x).toNat]? with
    | none => simp only [hk] at h; cases h; simp at hf
    | some p => simp only [hk] at h; cases h; simp [State.skipIf_latch_pc, pcAfterStep, hk]
  | sknp x =>
    simp only [exec, execSknp, State.keySlot_eq, State.latch_getV, State.latch_key] at h
    cases hk : s.key[(s.getV x).toNat]? with
    | none => simp only [hk] at h; cases h; simp at hf
    | some p => simp only [hk] at h; cases h; simp [State.skipIf_latch_pc, pcAfterStep, hk]
  | ldVxK x =>
    simp only [exec, execLdVxK] at h
    split at h
    case h_1 k hp =>
      cases h
      have hex : ∃ k : Fin 16, s.key[k.val] = true := State.exists_pressed_of_firstPressed hp
      simp only [pcAfterStep, if_pos hex, State.setV_pc, State.latch_pc]
    case h_2 hp =>
      cases h
      have hno : ¬ ∃ k : Fin 16, s.key[k.val] = true := by
        have hall := (State.firstPressed_eq_none _).mp hp
        simpa using hall
      simp only [pcAfterStep, if_neg hno, State.repeatInstr_pc, State.latch_pc, BitVec.add_sub_cancel]
  | _ => exact frame_of_exec h .pc id

/-- A call that completes has pushed the pc it started with. -/
theorem exec_call_pushes {nnn : Addr} {s u : State} (h : exec (.call nnn) s = .next u) (hf : u.fault = none) :
    u.stack[s.sp.val]? = some s.pc := by
  simp only [exec, execCall] at h
  split at h
  case isTrue hlt => cases h; simp [hlt]
  case isFalse => cases h; simp at hf

/-- Settles O15: the tick after the handler leaves pc and the stack as they are. -/
theorem pcAfterEveryInstruction : Obligations.PcAfterEveryInstruction := by
  intro s t w hw h hn
  obtain ⟨u, hu, hf, rfl⟩ := completed_step hw h hn
  rw [State.tick_pc, State.tick_stack]
  refine ⟨exec_pc hu hf, fun nnn hcall => ?_⟩
  rw [hcall] at hu
  exact exec_call_pushes hu hf

/-! ## The opcode latch (R37) -/

/-- The step of a state that fetches `w`, from what `w`'s handler answers. -/
theorem step_of_exec {s u : State} {w : Word} (hw : Fetches s w) (hu : exec (decodeWord w) (s.latch w) = .next u) :
    step s = .next (s.finish u) := by
  obtain ⟨u', hu', hs⟩ := step_of_fetches hw
  rw [hu] at hu'
  cases hu'
  exact hs

/-- Settles O18: the fetch overwrites the latch before the handler runs, no handler writes it, and a fault puts the
old word back. -/
theorem opcodeLatchIsNeverSeen : Obligations.OpcodeLatchIsNeverSeen := by
  intro s t o h
  obtain ⟨hf, ⟨hpc, rfl⟩ | ⟨w, u, hw, hu, rfl⟩⟩ := step_cases h
  · exact ⟨fun hn => (nomatch hn), fun _ => step_of_fetch_fault (s := { s with opcode := o }) hf hpc⟩
  · have hother : step { s with opcode := o } = .next (({ s with opcode := o } : State).finish u) :=
      step_of_exec (s := { s with opcode := o }) hw hu
    rw [hother]
    cases huf : u.fault with
    | none =>
      have hlatched : u.opcode = w := frame_of_exec hu .opcode id
      rw [State.finish_of_none _ huf, State.finish_of_none _ huf, State.tick_opcode, hlatched]
      exact ⟨fun _ => ⟨hw, rfl⟩, fun hn => absurd huf hn⟩
    | some r =>
      rw [State.finish_of_some _ huf, State.finish_of_some _ huf]
      exact ⟨fun hn => (nomatch hn), fun _ => rfl⟩

/-! ## The unseen parts of the state: ST (R34) and the stack entries at or above sp (R31) -/

/-- The state with another ST and another stack. -/
def State.withUnseen (s : State) (b : Byte) (stack : Vector Word 16) : State := { s with st := b, stack := stack }

/-- From `s` to `s.withUnseen b stack` only unseen parts differ: ST, if `stMay`, and stack entries at or above sp, if
`deadMay`. -/
def UnseenDiffers (stMay deadMay : Prop) (s : State) (b : Byte) (stack : Vector Word 16) : Prop :=
  (stMay ∨ b = s.st) ∧ (deadMay ∨ stack = s.stack) ∧
    ∀ k : Fin 16, k.val < s.sp.val → stack[k.val] = s.stack[k.val]

section Unseen

variable (s : State) (b : Byte) (stack : Vector Word 16)

theorem State.withUnseen_skipIf (c : Bool) : (s.withUnseen b stack).skipIf c = (s.skipIf c).withUnseen b stack := by
  cases c <;> rfl

theorem State.withUnseen_drawBit (row : Fin 32) (col : Fin 64) :
    (s.withUnseen b stack).drawBit row col = (s.drawBit row col).withUnseen b stack := by
  have hpixel : (s.withUnseen b stack).pixel row col = s.pixel row col := rfl
  simp only [State.drawBit, hpixel]
  cases s.pixel row col <;> rfl

theorem State.withUnseen_drawRow (row : Fin 32) (xc : Nat) (bits : Byte) :
    (s.withUnseen b stack).drawRow row xc bits = (s.drawRow row xc bits).withUnseen b stack := by
  unfold State.drawRow
  generalize List.range 8 = cols
  induction cols generalizing s with
  | nil => rfl
  | cons c cols ih =>
    rw [List.foldl_cons, List.foldl_cons, ← ih]
    split
    · rw [State.withUnseen_drawBit]
    · rfl

theorem State.withUnseen_drawRows (xc yc r : Nat) (rows : List Byte) :
    (s.withUnseen b stack).drawRows xc yc r rows = (s.drawRows xc yc r rows).withUnseen b stack := by
  induction rows generalizing s r with
  | nil => rfl
  | cons bits rows ih => rw [State.drawRows, State.drawRows, State.withUnseen_drawRow, ih]

theorem State.withUnseen_loadRegs (i : Nat) (bs : List Byte) :
    (s.withUnseen b stack).loadRegs i bs = (s.loadRegs i bs).withUnseen b stack := by
  induction bs generalizing s i with
  | nil => rfl
  | cons v bs ih => exact ih (s.setV (BitVec.ofNat 4 i) v) (i + 1)

end Unseen

/-- Both outcomes are next states, and from one to the other only unseen parts differ. -/
def AnswersAlike (stMay deadMay : Prop) (o o' : Host.Outcome State Fault Refusal) : Prop :=
  ∃ t b stack, o = .next t ∧ o' = .next (t.withUnseen b stack) ∧ UnseenDiffers stMay deadMay t b stack

section Handlers

variable {stMay deadMay : Prop} {s : State} {b : Byte} {stack : Vector Word 16}

theorem skipIf_alike (h : UnseenDiffers stMay deadMay s b stack) (c : Bool) :
    AnswersAlike stMay deadMay (.next (s.skipIf c)) (.next ((s.withUnseen b stack).skipIf c)) := by
  refine ⟨_, b, stack, rfl, by rw [State.withUnseen_skipIf], ?_⟩
  rw [State.skipIf_eq]
  exact h

/-- A return reads the entry below sp alone. -/
theorem execRet_alike (h : UnseenDiffers stMay deadMay s b stack) :
    AnswersAlike stMay deadMay (execRet s) (execRet (s.withUnseen b stack)) := by
  obtain ⟨hst, hdead, hlive⟩ := h
  by_cases hpos : 0 < s.sp.val
  · have hsp := s.sp.isLt
    have htop : (s.withUnseen b stack).topEntry hpos = s.topEntry hpos :=
      hlive ⟨s.sp.val - 1, by omega⟩ (Nat.sub_one_lt (by omega))
    have hpop : (s.withUnseen b stack).popPc hpos = (s.popPc hpos).withUnseen b stack :=
      congrArg ((s.popPc hpos).withUnseen b stack).setPc htop
    refine ⟨_, b, stack, dif_pos hpos, (dif_pos hpos).trans (congrArg _ hpop), hst, hdead, fun k hk => hlive k ?_⟩
    exact Nat.lt_of_lt_of_le hk (Nat.sub_le _ 1)
  · exact ⟨_, b, stack, dif_neg hpos, dif_neg hpos, hst, hdead, hlive⟩

/-- A call overwrites the one entry it brings below sp. -/
theorem execCall_alike (h : UnseenDiffers stMay deadMay s b stack) (nnn : Addr) :
    AnswersAlike stMay deadMay (execCall nnn s) (execCall nnn (s.withUnseen b stack)) := by
  obtain ⟨hst, hdead, hlive⟩ := h
  by_cases hlt : s.sp.val < 16
  · refine ⟨_, b, stack.set s.sp.val s.pc, dif_pos hlt, dif_pos hlt, hst, hdead.imp_right (by rintro rfl; rfl), ?_⟩
    intro k hk
    have hle : k.val < s.sp.val + 1 := hk
    rw [State.setPc_stack, State.push_stack, Vector.getElem_set, Vector.getElem_set]
    split
    case isTrue => rfl
    case isFalse hne => exact hlive k (by omega)
  · exact ⟨_, b, stack, dif_neg hlt, dif_neg hlt, hst, hdead, hlive⟩

theorem execDrw_alike (h : UnseenDiffers stMay deadMay s b stack) (x y n : Nibble) :
    AnswersAlike stMay deadMay (execDrw x y n s) (execDrw x y n (s.withUnseen b stack)) := by
  have hread : (s.withUnseen b stack).readBytes (s.withUnseen b stack).index.toNat n.toNat =
    s.readBytes s.index.toNat n.toNat := rfl
  simp only [execDrw, hread]
  cases s.readBytes s.index.toNat n.toNat with
  | error a => exact ⟨_, b, stack, rfl, rfl, h⟩
  | ok rows =>
    refine ⟨_, b, stack, rfl, congrArg _ (State.withUnseen_drawRows (s.setV vf 0#8) b stack _ _ 0 rows), ?_⟩
    rw [State.drawRows_eq]
    exact h

theorem execLdVxMem_alike (h : UnseenDiffers stMay deadMay s b stack) (x : Nibble) :
    AnswersAlike stMay deadMay (execLdVxMem x s) (execLdVxMem x (s.withUnseen b stack)) := by
  have hread : (s.withUnseen b stack).readBytes (s.withUnseen b stack).index.toNat (x.toNat + 1) =
    s.readBytes s.index.toNat (x.toNat + 1) := rfl
  simp only [execLdVxMem, hread]
  cases s.readBytes s.index.toNat (x.toNat + 1) with
  | error a => exact ⟨_, b, stack, rfl, rfl, h⟩
  | ok bytes =>
    refine ⟨_, b, stack, rfl, congrArg _ (State.withUnseen_loadRegs s b stack 0 bytes), ?_⟩
    rw [State.loadRegs_eq]
    exact h

theorem storeOrRaise_alike (h : UnseenDiffers stMay deadMay s b stack) (bs : List Byte) :
    AnswersAlike stMay deadMay (s.storeOrRaise bs) ((s.withUnseen b stack).storeOrRaise bs) := by
  unfold State.storeOrRaise State.writeBytes
  have hindex : (s.withUnseen b stack).index = s.index := rfl
  rw [hindex]
  cases firstOutOfRange s.index.toNat bs.length with
  | some a => exact ⟨_, b, stack, rfl, rfl, h⟩
  | none => exact ⟨_, b, stack, rfl, rfl, h⟩

theorem execSkp_execSknp_alike (h : UnseenDiffers stMay deadMay s b stack) (x : Nibble) :
    AnswersAlike stMay deadMay (execSkp x s) (execSkp x (s.withUnseen b stack)) ∧
      AnswersAlike stMay deadMay (execSknp x s) (execSknp x (s.withUnseen b stack)) := by
  have hslot : (s.withUnseen b stack).keySlot ((s.withUnseen b stack).getV x) = s.keySlot (s.getV x) := rfl
  simp only [execSkp, execSknp, hslot]
  cases s.keySlot (s.getV x) with
  | error k => exact ⟨⟨_, b, stack, rfl, rfl, h⟩, ⟨_, b, stack, rfl, rfl, h⟩⟩
  | ok pressed => exact ⟨skipIf_alike h pressed, skipIf_alike h (!pressed)⟩

theorem execLdVxK_alike (h : UnseenDiffers stMay deadMay s b stack) (x : Nibble) :
    AnswersAlike stMay deadMay (execLdVxK x s) (execLdVxK x (s.withUnseen b stack)) := by
  have hkey : (s.withUnseen b stack).firstPressed = s.firstPressed := rfl
  simp only [execLdVxK, hkey]
  cases s.firstPressed with
  | some k => exact ⟨_, b, stack, rfl, rfl, h⟩
  | none => exact ⟨_, b, stack, rfl, rfl, h⟩

/-- No handler sees ST or a stack entry at or above sp. -/
theorem exec_alike (h : UnseenDiffers stMay deadMay s b stack) (i : Instr) :
    AnswersAlike stMay deadMay (exec i s) (exec i (s.withUnseen b stack)) := by
  cases i with
  | ret => exact execRet_alike h
  | call nnn => exact execCall_alike h nnn
  | ldStVx x =>
    obtain ⟨-, hdead, hlive⟩ := h
    exact ⟨_, s.getV x, stack, rfl, rfl, .inr rfl, hdead, hlive⟩
  | seImm x kk => exact skipIf_alike h _
  | sneImm x kk => exact skipIf_alike h _
  | seReg x y => exact skipIf_alike h _
  | sneReg x y => exact skipIf_alike h _
  | skp x => exact (execSkp_execSknp_alike h x).1
  | sknp x => exact (execSkp_execSknp_alike h x).2
  | drw x y n => exact execDrw_alike h x y n
  | ldVxK x => exact execLdVxK_alike h x
  | ldB x => rw [exec_ldB, exec_ldB]; exact storeOrRaise_alike h _
  | ldMemVx x => rw [exec_ldMemVx, exec_ldMemVx]; exact storeOrRaise_alike h _
  | ldVxMem x => exact execLdVxMem_alike h x
  | _ => exact ⟨_, b, stack, rfl, rfl, h⟩

/-- No step sees ST or a stack entry at or above sp. -/
theorem step_alike {t : State} (h : UnseenDiffers stMay deadMay s b stack) (hstep : step s = .next t) :
    ∃ b' stack', step (s.withUnseen b stack) = .next (t.withUnseen b' stack') ∧
      UnseenDiffers stMay deadMay t b' stack' := by
  obtain ⟨hf, ⟨hpc, rfl⟩ | ⟨w, u, hw, hu, rfl⟩⟩ := step_cases hstep
  · exact ⟨b, stack, step_of_fetch_fault (s := s.withUnseen b stack) hf hpc, h⟩
  · have hlatch : UnseenDiffers stMay deadMay (s.latch w) b stack := h
    obtain ⟨v, b', stack', hv, hv', hdiff⟩ := exec_alike hlatch (decodeWord w)
    rw [hu] at hv
    cases hv
    rw [step_of_exec (s := s.withUnseen b stack) hw hv']
    cases huf : u.fault with
    | none =>
      rw [State.finish_of_none s huf, State.finish_of_none _ (t := u.withUnseen b' stack') huf]
      obtain ⟨hst, hdead, hlive⟩ := hdiff
      exact ⟨countDown b', stack', rfl, hst.imp_right (congrArg countDown), hdead, hlive⟩
    | some r =>
      rw [State.finish_of_some s huf, State.finish_of_some _ (t := u.withUnseen b' stack') huf]
      exact ⟨b, stack, rfl, h⟩

end Handlers

/-- Settles O19: two states that differ in ST alone answer states that differ in unseen parts, among them no stack
entry. -/
theorem soundTimerIsNeverRead : Obligations.SoundTimerIsNeverRead := by
  intro s t b h
  have hdiff : UnseenDiffers True False s b s.stack := ⟨.inl trivial, .inr rfl, fun _ _ => rfl⟩
  obtain ⟨b', stack', hstep, -, hfalse | rfl, -⟩ := step_alike hdiff h
  · exact hfalse.elim
  · exact ⟨b', hstep⟩

/-- Settles O20: two states that differ in dead stack entries alone answer states that differ in unseen parts, among
them not ST. -/
theorem deadStackEntriesAreNeverSeen : Obligations.DeadStackEntriesAreNeverSeen := by
  intro s t stack hlive h
  have hdiff : UnseenDiffers False True s s.st stack := ⟨.inr rfl, .inl trivial, hlive⟩
  obtain ⟨b', stack', hstep, hfalse | rfl, -, hlive'⟩ := step_alike hdiff h
  · exact hfalse.elim
  · exact ⟨stack', hlive', hstep⟩

end Sys2Proof.Machine
end

section
/-!
SUPPORT. The statements of the family 20_memory.md: the invariant that every step keeps (R50, R271, R273, R275); the
big-endian fetch and its fault (R55, R102); and the checked accesses of one byte and of several (R51–R54).
-/

namespace Sys2Proof.Machine

/-! ## Canonical memory (R50) -/

/-- A checked store keeps the canonical form. -/
theorem State.writeBytes_keeps_wf {s t : State} {base : Nat} {bs : List Byte} (hw : s.writeBytes base bs = .ok t)
    (hm : Memory.wf s.mem = true) : Memory.wf t.mem = true := by
  rw [State.writeBytes_eq] at hw
  split at hw
  case isTrue hin =>
    cases hw
    rcases hin with hnil | hle
    · rw [List.eq_nil_of_length_eq_zero hnil]
      exact hm
    · exact Memory.writeList_wf hm hle
  case isFalse => cases hw

/-- Fx33 and Fx55 end in a checked store, or leave memory as it is. -/
theorem State.storeOrRaise_mem {s t : State} {bs : List Byte} (h : s.storeOrRaise bs = .next t) :
    t.mem = s.mem ∨ s.writeBytes s.index.toNat bs = .ok t := by
  unfold State.storeOrRaise at h
  split at h
  case h_1 => cases h; exact .inl rfl
  case h_2 hw => cases h; exact .inr hw

theorem State.skipIf_mem (s : State) (c : Bool) : (s.skipIf c).mem = s.mem := by
  rw [State.skipIf_eq, State.setPc_mem]

/-- A handler leaves memory as it is, or ends in a checked store at I. -/
theorem exec_mem {i : Instr} {s t : State} (h : exec i s = .next t) :
    t.mem = s.mem ∨ ∃ bs, s.writeBytes s.index.toNat bs = .ok t := by
  cases i with
  | ldB x => exact (State.storeOrRaise_mem h).imp_right (Exists.intro _)
  | ldMemVx x => exact (State.storeOrRaise_mem h).imp_right (Exists.intro _)
  | drw x y n =>
    simp only [exec, execDrw] at h
    split at h <;> cases h
    · exact .inl rfl
    · exact .inl (by rw [State.drawRows_eq]; rfl)
  | ldVxMem x =>
    simp only [exec, execLdVxMem] at h
    split at h <;> cases h
    · exact .inl rfl
    · exact .inl (by rw [State.loadRegs_eq])
  | ret => simp only [exec, execRet] at h; split at h <;> cases h <;> exact .inl rfl
  | call nnn => simp only [exec, execCall] at h; split at h <;> cases h <;> exact .inl rfl
  | ldVxK x => simp only [exec, execLdVxK] at h; split at h <;> cases h <;> exact .inl rfl
  | skp x =>
    simp only [exec, execSkp] at h
    split at h <;> cases h
    · exact .inl rfl
    · exact .inl (State.skipIf_mem _ _)
  | sknp x =>
    simp only [exec, execSknp] at h
    split at h <;> cases h
    · exact .inl rfl
    · exact .inl (State.skipIf_mem _ _)
  | seImm x kk => cases h; exact .inl (State.skipIf_mem _ _)
  | sneImm x kk => cases h; exact .inl (State.skipIf_mem _ _)
  | seReg x y => cases h; exact .inl (State.skipIf_mem _ _)
  | sneReg x y => cases h; exact .inl (State.skipIf_mem _ _)
  | _ => cases h; exact .inl rfl

theorem exec_keeps_wf {i : Instr} {s t : State} (h : exec i s = .next t) (hm : Memory.wf s.mem = true) :
    Memory.wf t.mem = true := by
  rcases exec_mem h with he | ⟨bs, hw⟩
  · rw [he]; exact hm
  · exact State.writeBytes_keeps_wf hw hm

theorem step_keeps_wf {s t : State} (h : step s = .next t) (hm : Memory.wf s.mem = true) :
    Memory.wf t.mem = true := by
  obtain ⟨-, ⟨-, rfl⟩ | ⟨w, u, -, hu, rfl⟩⟩ := step_cases h
  · exact hm
  · cases huf : u.fault with
    | none =>
      rw [State.finish_of_none s huf, State.tick_mem]
      exact exec_keeps_wf hu hm
    | some r =>
      rw [State.finish_of_some s huf]
      exact hm

/-! ## The record of a faulting step (R107, R271, R273, R275) -/

/-- A handler starts from the latched state, but its conditions for a fault look at parts that the latch leaves. -/
theorem raisedWith_latch {s : State} {w : Word} {c : FaultCause} {i : Instr} {info : Nat} :
    RaisedWith (s.latch w) c i info ↔ RaisedWith s c i info := Iff.rfl

/-- A step that records a fault changes nothing else, and the record is as the spec says. -/
theorem step_records {s t : State} {r : FaultRecord} (h : step s = .next t) (hr : t.fault = some r) :
    t = { s with fault := some r } ∧ RecordOk s r := by
  obtain ⟨hf, ⟨hpc, rfl⟩ | ⟨w, u, hw, hu, rfl⟩⟩ := step_cases h
  · cases hr
    exact ⟨rfl, rfl, rfl, Nat.le_of_not_lt hpc, rfl⟩
  · rcases handled_of_exec hu with hkept | ⟨c, info, rfl, hraised⟩
    · rw [State.finish_of_none s (hkept.trans hf), State.tick_fault, hkept, State.latch_fault, hf] at hr
      cases hr
    · cases hr
      exact ⟨rfl, BitVec.add_sub_cancel s.pc 2#16, hw.2, raisedWith_latch.mp hraised⟩

/-- Settles O21: memory stays canonical because every store is checked, and a state that holds a record is the state
the faulting step began in but for that record. -/
theorem everyStepKeepsTheInvariant : Obligations.EveryStepKeepsTheInvariant := by
  intro s t ⟨hm, _⟩ h
  refine ⟨step_keeps_wf h hm, fun r hr => ?_⟩
  obtain ⟨rfl, hok⟩ := step_records h hr
  exact hok

/-! ## The lowest bad address of an access (R54) -/

/-- The lowest address out of range is the one below which every address of the access is in range. -/
theorem lowestOutside_eq {base a : Nat} (hbase : base ≤ a) (hout : 4096 ≤ a)
    (hlowest : ∀ b, base ≤ b → b < a → b < 4096) : lowestOutside base = a := by
  unfold lowestOutside
  rw [Config.memSize_eq]
  split
  case isTrue hin =>
    have hle : a ≤ 4096 := Nat.le_of_not_lt fun hlt => absurd (hlowest 4096 (by omega) hlt) (by omega)
    exact Nat.le_antisymm hout hle
  case isFalse hin =>
    have hle : a ≤ base := Nat.le_of_not_lt fun hlt => hin (hlowest base (Nat.le_refl base) hlt)
    exact Nat.le_antisymm hbase hle

/-! ## The fetch (R55, R102) -/

/-- A fetch whose lowest address out of range is `a` records a FetchFault with `a`, and nothing else changes. -/
theorem step_of_fetch_outside {s : State} {a : Nat} (hf : s.fault = none) (hpc : s.pc.toNat ≤ a)
    (ha : a ≤ s.pc.toNat + 1) (hout : 4096 ≤ a) (hlowest : ∀ b, s.pc.toNat ≤ b → b < a → b < 4096) :
    step s = .next { s with fault := some ⟨.fetch, s.pc, none, a⟩ } := by
  have hbad : ¬ s.pc.toNat + 1 < Config.memSize := Nat.not_lt.mpr (Nat.le_trans hout ha)
  rw [step_of_fetch_fault hf hbad, lowestOutside_eq hpc hout hlowest, State.takeFault]

/-- Settles O9: the fetch in its three ranges of pc, with what the latch holds after a completed step. -/
theorem fetchIsBigEndianOrFaults : Obligations.FetchIsBigEndianOrFaults := by
  intro s hf
  refine ⟨fun hpc => ?inside, fun hpc => ?last, fun hpc => ?outside⟩
  case inside =>
    refine ⟨_, by rw [State.fetchWord_eq, if_pos hpc], wordOfBytes_toNat _ _, fun t ht hn => ?_⟩
    obtain ⟨⟨-, -, hlatched⟩, -⟩ := (opcodeLatchIsNeverSeen s t t.opcode ht).1 hn
    exact hlatched
  case last =>
    exact step_of_fetch_outside hf (by omega) (by omega) (by omega) fun b _ hb => hb
  case outside =>
    exact step_of_fetch_outside hf (Nat.le_refl _) (Nat.le_succ _) hpc fun b hlo hhi => by omega

/-! ## Checked accesses (R51–R54) -/

/-- An access whose lowest address out of range is `a` reports `a`, whether it reads or writes. -/
theorem State.access_outside (s : State) {base n a : Nat} (hbase : base ≤ a) (ha : a < base + n) (hout : 4096 ≤ a)
    (hlowest : ∀ b, base ≤ b → b < a → b < 4096) :
    s.readBytes base n = .error a ∧ ∀ bs : List Byte, bs.length = n → s.writeBytes base bs = .error a := by
  have hbad : ¬ (n = 0 ∨ base + n ≤ Config.memSize) := by rw [Config.memSize_eq]; omega
  constructor
  · rw [State.readBytes_eq, if_neg hbad, lowestOutside_eq hbase hout hlowest]
  · rintro bs rfl
    rw [State.writeBytes_eq, if_neg hbad, lowestOutside_eq hbase hout hlowest]

/-- A byte stored inside a canonical memory is read again, and nothing else changes. -/
theorem State.writeBytes_one (s : State) {a : Nat} (v : Byte) (hm : Memory.wf s.mem = true) (ha : a < 4096) :
    ∃ t, s.writeBytes a [v] = .ok t ∧ Memory.read t.mem a = v ∧ Memory.wf t.mem = true ∧
      ChangesOnly s t (fun p => p = .byte a) := by
  have hin : a + [v].length ≤ Config.memSize := ha
  have hw : s.writeBytes a [v] = .ok { s with mem := Memory.writeList s.mem a [v] } := by
    rw [State.writeBytes_eq, if_pos (.inr hin)]
  refine ⟨_, hw, Memory.read_writeList_stored hm hin 0 Nat.zero_lt_one, State.writeBytes_keeps_wf hw hm, ?_⟩
  refine s.writeBytes_changesOnly hw fun b hlo hhi => ?_
  rw [Nat.le_antisymm (Nat.le_of_lt_succ hhi) hlo]

/-- Settles O24: the second clause is the access of one byte in the fourth. -/
theorem memoryAccessIsCheckedWhole : Obligations.MemoryAccessIsCheckedWhole := by
  refine ⟨fun s a ha => ?read, fun s a ha => ?outside, fun s a v hm ha => s.writeBytes_one v hm ha,
    fun s _ _ _ hbase ha hout hlowest => s.access_outside hbase ha hout hlowest⟩
  case read => rw [State.readBytes_eq, if_pos (.inr ha)]; rfl
  case outside =>
    have hlowest : ∀ b, a ≤ b → b < a → b < 4096 := fun b hlo hhi => absurd hlo (Nat.not_le.mpr hhi)
    obtain ⟨hread, hwrite⟩ := s.access_outside (Nat.le_refl a) (Nat.lt_add_one a) ha hlowest
    exact ⟨hread, fun v => hwrite [v] rfl⟩

end Sys2Proof.Machine
end

section
/-!
SUPPORT. The statements of the family 30_encoding.md: the decoder answers the instruction of a row of R77 that the word
matches, or the no-op of an unpopulated slot of R78 (R80); what follows from it for the rows, the no-ops and the
encoder; the words R79 adds; the fields (R72); and the states in which a step answers (R101, R107).
-/

namespace Sys2Proof

open Machine

/-! ## A masked word holds the fields that its mask keeps (R71, R77) -/

theorem packXYN_fields (w : Word) : packXYN (opField w) (xField w) (yField w) (nField w) = w := by
  apply BitVec.eq_of_toNat_eq
  rw [packXYN_toNat, opField_toNat, xField_toNat, yField_toNat, nField_toNat]
  omega

theorem packXKK_fields (w : Word) : packXKK (opField w) (xField w) (kkField w) = w := by
  apply BitVec.eq_of_toNat_eq
  rw [packXKK_toNat, opField_toNat, xField_toNat, kkField_toNat]
  omega

theorem packXYN_and (op op' x x' y y' n n' : Nibble) :
    packXYN op x y n &&& packXYN op' x' y' n' = packXYN (op &&& op') (x &&& x') (y &&& y') (n &&& n') := by
  unfold packXYN
  rw [← BitVec.and_append, ← BitVec.and_append, ← BitVec.and_append]

theorem packXKK_and (op op' x x' : Nibble) (kk kk' : Byte) :
    packXKK op x kk &&& packXKK op' x' kk' = packXKK (op &&& op') (x &&& x') (kk &&& kk') := by
  unfold packXKK
  rw [← BitVec.and_append, ← BitVec.and_append]

theorem and_maskF000 {w : Word} {op : Nibble} (hop : opField w = op) :
    w &&& 0xF000#16 = packXYN op 0x0#4 0x0#4 0x0#4 := by
  calc w &&& 0xF000#16 = packXYN op (xField w) (yField w) (nField w) &&& packXYN 0xF#4 0x0#4 0x0#4 0x0#4 := by
        rw [← hop, packXYN_fields]; rfl
    _ = packXYN op 0x0#4 0x0#4 0x0#4 := by
        rw [packXYN_and, BitVec.and_zero, BitVec.and_zero, BitVec.and_zero]
        exact congrArg (packXYN · _ _ _) BitVec.and_allOnes

theorem and_maskF00F {w : Word} {op n : Nibble} (hop : opField w = op) (hn : nField w = n) :
    w &&& 0xF00F#16 = packXYN op 0x0#4 0x0#4 n := by
  calc w &&& 0xF00F#16 = packXYN op (xField w) (yField w) n &&& packXYN 0xF#4 0x0#4 0x0#4 0xF#4 := by
        rw [← hop, ← hn, packXYN_fields]; rfl
    _ = packXYN op 0x0#4 0x0#4 n := by
        rw [packXYN_and, BitVec.and_zero, BitVec.and_zero]
        exact congrArg₂ (packXYN · _ _ ·) BitVec.and_allOnes BitVec.and_allOnes

theorem and_maskF0FF {w : Word} {op : Nibble} {kk : Byte} (hop : opField w = op) (hkk : kkField w = kk) :
    w &&& 0xF0FF#16 = packXKK op 0x0#4 kk := by
  calc w &&& 0xF0FF#16 = packXKK op (xField w) kk &&& packXKK 0xF#4 0x0#4 0xFF#8 := by
        rw [← hop, ← hkk, packXKK_fields]; rfl
    _ = packXKK op 0x0#4 kk := by
        rw [packXKK_and, BitVec.and_zero]
        exact congrArg₂ (packXKK · _ ·) BitVec.and_allOnes BitVec.and_allOnes

/-! ## The unpopulated slots by the selectors of the dispatch (R75, R78) -/

theorem unpopulated_eq_fields (w : Word) : unpopulated w =
    (((opField w).toNat == 0x0 && emptySlots0.contains (nField w).toNat) ||
    ((opField w).toNat == 0x8 && emptySlots8.contains (nField w).toNat) ||
    ((opField w).toNat == 0xE && emptySlotsE.contains (nField w).toNat) ||
    ((opField w).toNat == 0xF && !usedSlotsF.contains (kkField w).toNat)) := by
  rw [opField_toNat, nField_toNat, kkField_toNat]
  rfl

/-- Group 0x0: the table lists every selector that the dispatch gives no instruction. -/
theorem emptySlots0_contains : ∀ n : Nibble, n ∉ [0x0#4, 0xE#4] → emptySlots0.contains n.toNat = true := by
  decide

theorem emptySlots8_contains : ∀ n : Nibble, n ∉ [0x0#4, 0x1#4, 0x2#4, 0x3#4, 0x4#4, 0x5#4, 0x6#4, 0x7#4, 0xE#4] →
    emptySlots8.contains n.toNat = true := by
  decide

theorem emptySlotsE_contains : ∀ n : Nibble, n ∉ [0x1#4, 0xE#4] → emptySlotsE.contains n.toNat = true := by
  decide

theorem usedSlotsF_not_contains (kk : Byte)
    (h : kk ∉ [0x07#8, 0x0A#8, 0x15#8, 0x18#8, 0x1E#8, 0x29#8, 0x33#8, 0x55#8, 0x65#8]) :
    usedSlotsF.contains kk.toNat = false := by
  simpa [usedSlotsF, ← BitVec.toNat_inj] using h

/-! ## The rows of R77's table -/

/-- Two rows are told apart by the bits that both masks keep. -/
theorem rows_differ_under_both_masks :
    opcodeRows.Pairwise fun r q => r.pattern &&& q.mask ≠ q.pattern &&& r.mask := by
  decide

theorem eq_under_both_masks {w : Word} {r q : OpcodeRow} (hr : w &&& r.mask = r.pattern)
    (hq : w &&& q.mask = q.pattern) : r.pattern &&& q.mask = q.pattern &&& r.mask := by
  rw [← hr, ← hq, BitVec.and_assoc, BitVec.and_assoc, BitVec.and_comm r.mask]

/-- A word matches at most one row. -/
theorem row_unique {w : Word} {r q : OpcodeRow} (hr : r ∈ opcodeRows) (hq : q ∈ opcodeRows)
    (hwr : w &&& r.mask = r.pattern) (hwq : w &&& q.mask = q.pattern) : r = q := by
  have : Std.Symm fun r q : OpcodeRow => r.pattern &&& q.mask ≠ q.pattern &&& r.mask := ⟨fun _ _ => Ne.symm⟩
  by_contra hne
  exact rows_differ_under_both_masks.forall hr hq hne (eq_under_both_masks hwr hwq)

theorem build_ne_nop : ∀ r ∈ opcodeRows, ∀ w v, r.build w ≠ .nop v := by
  simp [opcodeRows]

/-- Each row's pattern lies in a populated slot, and its mask keeps the selectors of its group: the high nibble alone,
with the low nibble, or, in group 0xF, with the low byte. -/
theorem rows_masks_keep_selectors : ∀ r ∈ opcodeRows, unpopulated r.pattern = false ∧
    (r.mask = 0xF000#16 ∧ opField r.pattern ∉ [0x0#4, 0x8#4, 0xE#4, 0xF#4] ∨
      r.mask = 0xF00F#16 ∧ opField r.pattern ≠ 0xF#4 ∨
      r.mask = 0xF0FF#16 ∧ opField r.pattern = 0xF#4) := by
  decide

/-- A word that matches a row has the selectors of the row's pattern, so it lies in a populated slot too. -/
theorem populated_of_row {w : Word} {r : OpcodeRow} (hr : r ∈ opcodeRows) (hw : w &&& r.mask = r.pattern) :
    unpopulated w = false := by
  obtain ⟨hp, hmask⟩ := rows_masks_keep_selectors r hr
  rcases hmask with ⟨hm, hgroup⟩ | ⟨hm, hgroup⟩ | ⟨hm, hgroup⟩ <;> rw [hm] at hw
  · rw [← opField_of_maskF000 hw] at hgroup
    exact Bool.eq_false_iff.mpr fun hu => hgroup (Laws.EncodeGroup.nop w hu)
  · obtain ⟨hop, hn⟩ := fields_of_maskF00F hw
    have hF : ((opField r.pattern).toNat == 0xF) = false :=
      beq_eq_false_iff_ne.mpr fun e => hgroup (BitVec.eq_of_toNat_eq e)
    rw [unpopulated_eq_fields, hF] at hp
    rw [unpopulated_eq_fields, hop, hn, hF]
    exact hp
  · obtain ⟨hop, hkk⟩ := fields_of_maskF0FF hw
    rw [unpopulated_eq_fields, hgroup] at hp
    rw [unpopulated_eq_fields, hop, hgroup, hkk]
    exact hp

/-! ## The dispatch (R74–R76, R81) -/

/-- What R80 admits as the instruction of a word: that of a row it matches, or the no-op of an unpopulated slot. -/
def DecodesTo (w : Word) (i : Instr) : Prop :=
  (∃ r ∈ opcodeRows, w &&& r.mask = r.pattern ∧ i = r.build w) ∨ (unpopulated w = true ∧ i = .nop w)

/-- The rows are counted from 0 here: `k` is the row `k + 1` of R77's table. -/
theorem DecodesTo.row {w : Word} (k : Fin 34) (h : w &&& opcodeRows[k].mask = opcodeRows[k].pattern) :
    DecodesTo w (opcodeRows[k].build w) :=
  .inl ⟨_, List.getElem_mem _, h, rfl⟩

theorem decode0_decodesTo {w : Word} (hop : opField w = 0x0#4) : DecodesTo w (decode0 w) := by
  unfold decode0
  split
  case h_1 hn => exact .row 0 (and_maskF00F hop hn)
  case h_2 hn => exact .row 1 (and_maskF00F hop hn)
  case h_3 =>
    refine .inr ⟨?_, rfl⟩
    rw [unpopulated_eq_fields, hop, emptySlots0_contains _ (by simp_all)]
    rfl

theorem decode8_decodesTo {w : Word} (hop : opField w = 0x8#4) : DecodesTo w (decode8 w) := by
  unfold decode8
  split
  case h_1 hn => exact .row 9 (and_maskF00F hop hn)
  case h_2 hn => exact .row 10 (and_maskF00F hop hn)
  case h_3 hn => exact .row 11 (and_maskF00F hop hn)
  case h_4 hn => exact .row 12 (and_maskF00F hop hn)
  case h_5 hn => exact .row 13 (and_maskF00F hop hn)
  case h_6 hn => exact .row 14 (and_maskF00F hop hn)
  case h_7 hn => exact .row 15 (and_maskF00F hop hn)
  case h_8 hn => exact .row 16 (and_maskF00F hop hn)
  case h_9 hn => exact .row 17 (and_maskF00F hop hn)
  case h_10 =>
    refine .inr ⟨?_, rfl⟩
    rw [unpopulated_eq_fields, hop, emptySlots8_contains _ (by simp_all)]
    rfl

theorem decodeE_decodesTo {w : Word} (hop : opField w = 0xE#4) : DecodesTo w (decodeE w) := by
  unfold decodeE
  split
  case h_1 hn => exact .row 24 (and_maskF00F hop hn)
  case h_2 hn => exact .row 23 (and_maskF00F hop hn)
  case h_3 =>
    refine .inr ⟨?_, rfl⟩
    rw [unpopulated_eq_fields, hop, emptySlotsE_contains _ (by simp_all)]
    rfl

theorem decodeF_decodesTo {w : Word} (hop : opField w = 0xF#4) : DecodesTo w (decodeF w) := by
  unfold decodeF
  split
  case h_1 hkk => exact .row 25 (and_maskF0FF hop hkk)
  case h_2 hkk => exact .row 26 (and_maskF0FF hop hkk)
  case h_3 hkk => exact .row 27 (and_maskF0FF hop hkk)
  case h_4 hkk => exact .row 28 (and_maskF0FF hop hkk)
  case h_5 hkk => exact .row 29 (and_maskF0FF hop hkk)
  case h_6 hkk => exact .row 30 (and_maskF0FF hop hkk)
  case h_7 hkk => exact .row 31 (and_maskF0FF hop hkk)
  case h_8 hkk => exact .row 32 (and_maskF0FF hop hkk)
  case h_9 hkk => exact .row 33 (and_maskF0FF hop hkk)
  case h_10 =>
    refine .inr ⟨?_, rfl⟩
    rw [unpopulated_eq_fields, hop, usedSlotsF_not_contains _ (by simp_all)]
    rfl

/-- The group left for the last arm of the dispatch. -/
theorem eq_F_of_not_other_group : ∀ op : Nibble, op ∉ [0x0#4, 0x1#4, 0x2#4, 0x3#4, 0x4#4, 0x5#4, 0x6#4, 0x7#4,
    0x8#4, 0x9#4, 0xA#4, 0xB#4, 0xC#4, 0xD#4, 0xE#4] → op = 0xF#4 := by
  decide

/-- The decoder keeps to R80. -/
theorem decodeWord_decodesTo (w : Word) : DecodesTo w (decodeWord w) := by
  unfold decodeWord
  split
  case h_1 hop => exact decode0_decodesTo hop
  case h_2 hop => exact .row 2 (and_maskF000 hop)
  case h_3 hop => exact .row 3 (and_maskF000 hop)
  case h_4 hop => exact .row 4 (and_maskF000 hop)
  case h_5 hop => exact .row 5 (and_maskF000 hop)
  case h_6 hop => exact .row 6 (and_maskF000 hop)
  case h_7 hop => exact .row 7 (and_maskF000 hop)
  case h_8 hop => exact .row 8 (and_maskF000 hop)
  case h_9 hop => exact decode8_decodesTo hop
  case h_10 hop => exact .row 18 (and_maskF000 hop)
  case h_11 hop => exact .row 19 (and_maskF000 hop)
  case h_12 hop => exact .row 20 (and_maskF000 hop)
  case h_13 hop => exact .row 21 (and_maskF000 hop)
  case h_14 hop => exact .row 22 (and_maskF000 hop)
  case h_15 hop => exact decodeE_decodesTo hop
  case h_16 => exact decodeF_decodesTo (eq_F_of_not_other_group _ (by simp_all))

theorem decodeWord_of_row {w : Word} {r : OpcodeRow} (hr : r ∈ opcodeRows) (hw : w &&& r.mask = r.pattern) :
    decodeWord w = r.build w := by
  rcases decodeWord_decodesTo w with ⟨q, hq, hwq, hdec⟩ | ⟨hu, -⟩
  · rw [hdec, row_unique hr hq hw hwq]
  · simp [populated_of_row hr hw] at hu

theorem decodeWord_of_unpopulated {w : Word} (hu : unpopulated w = true) : decodeWord w = .nop w := by
  rcases decodeWord_decodesTo w with ⟨r, hr, hw, -⟩ | ⟨-, hdec⟩
  · simp [populated_of_row hr hw] at hu
  · exact hdec

/-! ## Decoding what was encoded -/

/-- The fields of a packed word are the fields it was packed of, and they select the instruction's handler; a no-op
keeps its word. -/
theorem decodeWord_encodeWord {i : Instr} (h : i.WellFormed) : decodeWord (encodeWord i) = i := by
  cases i with
  | nop w => exact decodeWord_of_unpopulated h
  | cls => rfl
  | ret => rfl
  | ldReg x y | orReg x y | andReg x y | xorReg x y | addReg x y | subReg x y | shr x | subnReg x y | shl x =>
    simp [encodeWord, decodeWord, decode8]
  | skp x | sknp x => simp [encodeWord, decodeWord, decodeE]
  | ldVxDt x | ldVxK x | ldDtVx x | ldStVx x | addI x | ldF x | ldB x | ldMemVx x | ldVxMem x =>
    simp [encodeWord, decodeWord, decodeF]
  | _ => simp [encodeWord, decodeWord]

/-- Settles O1: the two bytes hold the instruction's word, which decodes to the instruction. -/
theorem decodeOfEncodeIsTheInstruction : Obligations.DecodeOfEncodeIsTheInstruction := by
  intro i rest h
  simp only [encode, decode, List.cons_append, List.nil_append, wordOfBytes_hi_lo, decodeWord_encodeWord h]

/-! ## The rows, the no-ops and every word (R77, R78, R80) -/

/-- Settles O2: the one row or slot that the decoder found is the row that the word matches. -/
theorem opcodeRowsSelectTheirInstruction : Obligations.OpcodeRowsSelectTheirInstruction :=
  ⟨rfl, fun _ hr _ hw => decodeWord_of_row hr hw,
    rows_differ_under_both_masks.imp fun hne _ ⟨hr, hq⟩ => hne (eq_under_both_masks hr hq)⟩

/-- Settles O3: no row's instruction is a no-op. -/
theorem unpopulatedSlotsAreTheNoOps : Obligations.UnpopulatedSlotsAreTheNoOps := by
  intro w
  refine ⟨fun ⟨v, hv⟩ => ?_, fun hu => ⟨w, decodeWord_of_unpopulated hu⟩⟩
  rcases decodeWord_decodesTo w with ⟨r, hr, -, hdec⟩ | ⟨hu, -⟩
  · exact absurd (hdec.symm.trans hv) (build_ne_nop r hr w v)
  · exact hu

theorem Instr.wellFormed_of_ne_nop {i : Instr} (h : ∀ v, i ≠ .nop v) : i.WellFormed := by
  cases i with
  | nop w => exact absurd rfl (h w)
  | _ => rfl

/-- Settles O4: the instruction of a row is no no-op, and a no-op's word is unpopulated. -/
theorem everyWordDecodes : Obligations.EveryWordDecodes := by
  intro w
  refine ⟨?_, decodeWord_decodesTo w⟩
  rcases decodeWord_decodesTo w with ⟨r, hr, -, hdec⟩ | ⟨hu, hdec⟩ <;> rw [hdec]
  · exact Instr.wellFormed_of_ne_nop (build_ne_nop r hr w)
  · exact hu

/-! ## Fields and words (R72, R79) -/

theorem extractLsb'_toNat_eq_and (w : Word) (start len : Nat) :
    (w.extractLsb' start len).toNat = (w.toNat >>> start) &&& (2 ^ len - 1) := by
  rw [BitVec.extractLsb'_toNat, Nat.and_two_pow_sub_one_eq_mod]

/-- Settles O6: a field is a bit range, and a mask of ones is a remainder. -/
theorem fieldsAreShiftedAndMasked : Obligations.FieldsAreShiftedAndMasked :=
  fun w => ⟨extractLsb'_toNat_eq_and w 12 4, extractLsb'_toNat_eq_and w 8 4, extractLsb'_toNat_eq_and w 4 4,
    extractLsb'_toNat_eq_and w 0 4, extractLsb'_toNat_eq_and w 0 8, extractLsb'_toNat_eq_and w 0 12⟩

/-- Settles O5: the dispatch reads only the selectors, and the handler only the fields x and y. -/
theorem aliasWordsExecuteTheirInstruction : Obligations.AliasWordsExecuteTheirInstruction := by
  refine ⟨fun _ _ => ?cls, fun _ _ => ?ret, fun _ _ _ => ?seReg, fun _ _ _ => ?sneReg, fun _ _ => ?skp,
    fun _ _ => ?sknp⟩
  case cls | ret => simp [decodeWord, decode0]
  case seReg | sneReg => simp [decodeWord]
  case skp | sknp => simp [decodeWord, decodeE]

/-- Settles O7: twelve fixed words. -/
theorem exampleWordsDecode : Obligations.ExampleWordsDecode := by
  unfold Obligations.ExampleWordsDecode
  decide

/-! ## The step (R101, R107) -/

/-- Settles O13: a state without a record fetches a word or records a FetchFault. -/
theorem stepAnswersUnlessStuck : Obligations.StepAnswersUnlessStuck := by
  intro s
  refine ⟨fun ⟨t, h⟩ => (step_cases h).1, fun hf => ?_⟩
  by_cases hpc : s.pc.toNat + 1 < Config.memSize
  · obtain ⟨u, -, hs⟩ := step_of_fetches ⟨hf, hpc, rfl⟩
    exact ⟨_, hs⟩
  · exact ⟨_, step_of_fetch_fault hf hpc⟩

end Sys2Proof
end

section
/-!
SUPPORT. The statements of the family 40_cycle.md: a step runs the handler of the decoded word between the latch and
the end of the step (R103–R107, R111); the stuck core (R101); the undoing of a fault (R107, R275); the tick of the
timers (R106); and the no-op (R108).
-/

namespace Sys2Proof.Machine

/-! ## The undoing of a fault (R107, R275) -/

/-- Settles O11: a record as the spec says names pc. -/
theorem faultingStepChangesOnlyTheRecord : Obligations.FaultingStepChangesOnlyTheRecord := by
  intro s t r h hr
  obtain ⟨heq, haddr, -⟩ := step_records h hr
  exact ⟨heq, haddr⟩

/-! ## The tick (R106) -/

/-- Settles O14: the tick counts down from what the handler left in a timer, which is the old value unless the
instruction is the one whose frame holds that timer. -/
theorem timersTickOncePerCompletedStep : Obligations.TimersTickOncePerCompletedStep := by
  intro s t w hw h hn
  obtain ⟨u, hu, -, rfl⟩ := completed_step hw h hn
  rw [State.tick_dt, State.tick_st, countDown_toNat, countDown_toNat]
  generalize decodeWord w = i at hu ⊢
  constructor
  case left =>
    cases i with
    | ldDtVx x => cases hu; rfl
    | _ => exact congrArg (·.toNat - 1) (frame_of_exec hu .dt id)
  case right =>
    cases i with
    | ldStVx x => cases hu; rfl
    | _ => exact congrArg (·.toNat - 1) (frame_of_exec hu .st id)

/-! ## The no-op (R108) -/

section Frames

variable (s : State) {may : Part → Prop}

theorem State.latch_changesOnly (w : Word) (hopcode : may .opcode) (hpc : may .pc) :
    ChangesOnly s (s.latch w) may := by
  apply changesOnly_of_fields <;> simp [hopcode, hpc]

theorem State.tick_changesOnly (hdt : may .dt) (hst : may .st) : ChangesOnly s s.tick may := by
  apply changesOnly_of_fields <;> simp [hdt, hst]

end Frames

/-- The step of a word of an unpopulated slot is the latch and the tick. -/
theorem step_of_unpopulated {s : State} {w : Word} (hw : Fetches s w) (hu : unpopulated w = true) :
    step s = .next (s.latch w).tick := by
  have hexec : exec (decodeWord w) (s.latch w) = .next (s.latch w) := by
    rw [decodeWord_of_unpopulated hu]; rfl
  rw [step_of_exec hw hexec, State.finish_of_none s (t := s.latch w) hw.1]

/-- Settles O38: a no-op's handler leaves the step its latch and its tick, and their frames compose. -/
theorem nopOnlyAdvances : Obligations.NopOnlyAdvances := by
  refine ⟨fun _ => decodeWord_of_unpopulated, fun _ _ => rfl, fun s w hw hu => ?_⟩
  refine ⟨_, step_of_unpopulated hw hu, BitVec.toNat_add s.pc 2#16, countDown_toNat s.dt, countDown_toNat s.st, rfl, ?_⟩
  exact changesOnly_trans s (s.latch_changesOnly w (by simp) (by simp)) (State.tick_changesOnly _ (by simp) (by simp))

/-! ## The step around its handler (R103–R107, R111) -/

/-- Two bytes decode to the instruction of their word. -/
theorem decodeWord_of_decode {hi lo : Byte} {i : Instr} (h : decode [hi, lo] = .ok (i, [])) :
    decodeWord (wordOfBytes hi lo) = i := by
  cases h
  rfl

/-- Settles O8: the latched state is the one the statement writes out, and so is either end of the step. -/
theorem stepRunsTheDecodedInstruction : Obligations.StepRunsTheDecodedInstruction := by
  rintro s i hi lo hf hpc rfl rfl hdec
  obtain ⟨u, hu, hs⟩ := step_of_fetches ⟨hf, hpc, rfl⟩
  rw [decodeWord_of_decode hdec, State.latch] at hu
  rw [hs, hu]
  cases huf : u.fault with
  | none => simp only [State.finish_of_none s huf, State.tick, countDown, huf]
  | some r => simp only [State.finish_of_some s huf, huf]

/-! ## The stuck core (R101) -/

theorem step_of_fault {s : State} {r : FaultRecord} (hf : s.fault = some r) : step s = .fault (.stuck r) := by
  simp only [step, hf]

/-- Settles O10: a step looks at the fault field first, and the reset state holds no record. -/
theorem faultedCoreIsStuck : Obligations.FaultedCoreIsStuck :=
  fun _ _ hf => ⟨step_of_fault hf, rfl⟩

end Sys2Proof.Machine
end

section
/-!
SUPPORT. The statements of the family 41_display.md: CLS (R120); what a draw does to each pixel and to VF, and its fault
(R121); and the same sprite drawn twice (R122).
-/

namespace Sys2Proof.Machine

/-- Each row of R77 selects its instruction. -/
theorem opcodeRows_select (k : Fin 34) :
    Selects opcodeRows[k].pattern opcodeRows[k].mask opcodeRows[k].build :=
  fun _ hw => decodeWord_of_row (List.getElem_mem _) hw

/-! ## CLS (R120) -/

/-- Settles O28: row 0 of R77, and the handler clears the pixels. -/
theorem clsClearsEveryPixel : Obligations.ClsClearsEveryPixel :=
  ⟨opcodeRows_select 0, fun s => ⟨s.clearPixels, rfl, s.clearPixels_pixel,
    s.clearPixels_changesOnly fun i j => ⟨i, j, rfl⟩⟩⟩

/-! ## The sprite and its place (R121) -/

/-- Sprite row `r` is the byte at I + r, and column `c` its bit 7 − c. -/
def State.spriteAt (s : State) (r c : Nat) : Bool := (Memory.read s.mem (s.index.toNat + r)).getLsbD (7 - c)

/-- The pixel row of sprite row `r`. -/
def State.spriteRow (s : State) (y : Nibble) (r : Nat) : Fin 32 := Fin.ofNat 32 ((s.getV y).toNat % 32 + r)

/-- The pixel column of sprite column `c`. -/
def State.spriteCol (s : State) (x : Nibble) (c : Nat) : Fin 64 := Fin.ofNat 64 ((s.getV x).toNat % 64 + c)

/-- A set bit of the sprite that meets `P`. -/
def State.HasSetBit (s : State) (n : Nibble) (P : Nat → Nat → Prop) : Prop :=
  ∃ r c : Nat, r < n.toNat ∧ c < 8 ∧ s.spriteAt r c = true ∧ P r c

/-- A set bit of the sprite falls on the pixel. -/
def State.Covers (s : State) (x y n : Nibble) (i : Fin 32) (j : Fin 64) : Prop :=
  s.HasSetBit n fun r c => i = s.spriteRow y r ∧ j = s.spriteCol x c

/-- A set bit of the sprite falls on a set pixel. -/
def State.Collides (s : State) (x y n : Nibble) : Prop :=
  s.HasSetBit n fun r c => s.pixel (s.spriteRow y r) (s.spriteCol x c) = true

/-- The bytes that a draw reads. -/
def State.spriteBytes (s : State) (n : Nibble) : List Byte :=
  (List.range n.toNat).map fun r => Memory.read s.mem (s.index.toNat + r)

/-- The state after a draw that completes. -/
def State.drawn (s : State) (x y n : Nibble) : State :=
  (s.setV vf 0#8).drawRows (startCol (s.getV x)) (startRow (s.getV y)) 0 (s.spriteBytes n)

section Drawn

variable (s : State) (x y n : Nibble)

theorem exec_drw_inside (h : n.toNat = 0 ∨ s.index.toNat + n.toNat ≤ 4096) :
    exec (.drw x y n) s = .next (s.drawn x y n) := by
  have hread : s.readBytes s.index.toNat n.toNat = .ok (s.spriteBytes n) := by
    rw [State.readBytes_eq, Config.memSize_eq, if_pos h, State.spriteBytes]
  simp only [exec, execDrw, hread, State.drawn]

theorem exec_drw_outside (hn : n.toNat ≠ 0) (h : 4096 < s.index.toNat + n.toNat) :
    exec (.drw x y n) s = .next (raised s .memRead (lowestOutside s.index.toNat)) := by
  have hread : s.readBytes s.index.toNat n.toNat = .error (lowestOutside s.index.toNat) := by
    rw [State.readBytes_eq, Config.memSize_eq, if_neg (by omega)]
  simp only [exec, execDrw, hread]
  rfl

theorem State.spriteBytes_length_le : (s.spriteBytes n).length ≤ 32 := by
  have := n.isLt
  simp only [State.spriteBytes, List.length_map, List.length_range]
  omega

/-- The set bits of the sprite, as the laws of `drawRows` speak of them. -/
theorem State.hasSetBit_iff_spriteBytes (P : Nat → Nat → Prop) :
    s.HasSetBit n P ↔ ∃ k b, (s.spriteBytes n)[k]? = some b ∧ ∃ c, c < 8 ∧ spriteBit b c = true ∧ P k c := by
  constructor
  · rintro ⟨r, c, hr, hc, hbit, hP⟩
    exact ⟨r, _, by simp [State.spriteBytes, hr], c, hc, hbit, hP⟩
  · rintro ⟨k, b, hk, c, hc, hbit, hP⟩
    obtain ⟨hlt, rfl⟩ := List.getElem?_eq_some_iff.mp hk
    simp only [State.spriteBytes, List.length_map, List.length_range, List.getElem_map, List.getElem_range]
      at hlt hbit
    exact ⟨k, c, hlt, hc, hbit, hP⟩

/-- A draw toggles the pixels under the sprite's set bits and no other. -/
theorem State.drawn_pixel (i : Fin 32) (j : Fin 64) :
    (s.Covers x y n i j → (s.drawn x y n).pixel i j = !s.pixel i j) ∧
    (¬ s.Covers x y n i j → (s.drawn x y n).pixel i j = s.pixel i j) := by
  have hlaw := (s.setV vf 0#8).drawRows_pixel (startCol (s.getV x)) (startRow (s.getV y)) 0 (s.spriteBytes n)
    (s.spriteBytes_length_le n) i j
  have hcovers : s.Covers x y n i j ↔ ∃ k b, (s.spriteBytes n)[k]? = some b ∧
      i = Fin.ofNat 32 (startRow (s.getV y) + (0 + k)) ∧
      ∃ c, c < 8 ∧ spriteBit b c = true ∧ j = Fin.ofNat 64 (startCol (s.getV x) + c) := by
    rw [State.Covers, State.hasSetBit_iff_spriteBytes]
    simp only [Nat.zero_add]
    constructor
    · rintro ⟨k, b, hk, c, hc, hbit, hi, hj⟩
      exact ⟨k, b, hk, hi, c, hc, hbit, hj⟩
    · rintro ⟨k, b, hk, hi, c, hc, hbit, hj⟩
      exact ⟨k, b, hk, c, hc, hbit, hi, hj⟩
  rw [hcovers]
  exact hlaw

/-- A draw sets VF on a collision and clears it otherwise. -/
theorem State.drawn_vf :
    (s.Collides x y n → (s.drawn x y n).getV vf = 1#8) ∧ (¬ s.Collides x y n → (s.drawn x y n).getV vf = 0#8) := by
  have hlaw := (s.setV vf 0#8).drawRows_getV_vf (startCol (s.getV x)) (startRow (s.getV y)) 0 (s.spriteBytes n)
    (s.spriteBytes_length_le n)
  simp only [Nat.zero_add, State.getV_setV_self, State.setV_pixel] at hlaw
  rw [State.Collides, State.hasSetBit_iff_spriteBytes]
  exact hlaw

theorem State.drawn_vf_eq_one_iff : (s.drawn x y n).getV vf = 1#8 ↔ s.Collides x y n := by
  obtain ⟨hset, hclear⟩ := s.drawn_vf x y n
  refine ⟨fun hone => ?_, hset⟩
  by_contra hno
  rw [hclear hno] at hone
  exact absurd hone (by decide)

/-- The sprite's bits fall on different pixels, so the one at row `r` and column `c` alone decides its pixel. -/
theorem State.covers_iff {r c : Nat} (hr : r < n.toNat) (hc : c < 8) :
    s.Covers x y n (s.spriteRow y r) (s.spriteCol x c) ↔ s.spriteAt r c = true := by
  constructor
  · rintro ⟨r', c', hr', hc', hbit, hrow, hcol⟩
    have := n.isLt
    have hrr : r = r' := row_injective (yc := startRow (s.getV y)) (r := 0) (by omega) (by omega)
      (by rw [Nat.zero_add, Nat.zero_add]; exact hrow)
    have hcc : c = c' := col_injective hc hc' hcol
    rwa [hrr, hcc]
  · exact fun hbit => ⟨r, c, hr, hc, hbit, rfl, rfl⟩

theorem State.drawn_pixel_xor {r c : Nat} (hr : r < n.toNat) (hc : c < 8) :
    (s.drawn x y n).pixel (s.spriteRow y r) (s.spriteCol x c) =
      (s.pixel (s.spriteRow y r) (s.spriteCol x c) ^^ s.spriteAt r c) := by
  obtain ⟨htoggled, hkept⟩ := s.drawn_pixel x y n (s.spriteRow y r) (s.spriteCol x c)
  rw [s.covers_iff x y n hr hc] at htoggled hkept
  cases hbit : s.spriteAt r c with
  | true => rw [htoggled hbit, Bool.xor_true]
  | false => rw [hkept (by simp [hbit]), Bool.xor_false]

/-- A draw changes VF and the pixels under the sprite's set bits alone. -/
theorem State.drawn_changesOnly {may : Part → Prop} (hvf : may (.reg vf))
    (hpixel : ∀ i j, s.Covers x y n i j → may (.pixel i j)) : ChangesOnly s (s.drawn x y n) may := by
  have hframe : ChangesOnly s (s.drawn x y n) fun p => p = .reg vf ∨ ∃ i j, p = .pixel i j :=
    changesOnly_trans s (s.setV_changesOnly vf _ (.inl rfl))
      (State.drawRows_changesOnly _ _ _ _ _ (.inl rfl) fun i j => .inr ⟨i, j, rfl⟩)
  intro p hp
  by_cases hpix : ∃ i j, p = .pixel i j
  · obtain ⟨i, j, rfl⟩ := hpix
    exact (s.drawn_pixel x y n i j).2 fun hcov => hp (hpixel i j hcov)
  · refine hframe p ?_
    rintro (rfl | h)
    · exact hp hvf
    · exact hpix h

end Drawn

/-! ## One draw (R121) -/

/-- Settles O29: the bits of a sprite fall on different pixels, so each one toggles its own once, and VF tells whether
one of them met a set pixel. -/
theorem drwXorsTheSprite : Obligations.DrwXorsTheSprite := by
  refine ⟨opcodeRows_select 22, fun x y n s => ⟨fun hin => ?inside, fun ⟨hn, hout⟩ => ?outside⟩⟩
  case inside =>
    obtain ⟨hset, hclear⟩ := s.drawn_vf x y n
    refine ⟨s.drawn x y n, exec_drw_inside s x y n hin, fun r c => s.drawn_pixel_xor x y n, hset, hclear,
      s.drawn_changesOnly x y n (.inl rfl) ?_⟩
    rintro i j ⟨r, c, hr, hc, hbit, rfl, rfl⟩
    exact .inr ⟨r, c, hr, hc, hbit, rfl⟩
  case outside => exact exec_drw_outside s x y n hn hout

/-! ## Two draws (R122) -/

section Twice

variable (s : State) {x y : Nibble} (n : Nibble)

/-- A draw leaves memory and I, hence the sprite. -/
theorem State.drawn_spriteAt (r c : Nat) : (s.drawn x y n).spriteAt r c = s.spriteAt r c := by
  rw [State.drawn, State.drawRows_eq]
  rfl

theorem State.drawn_index : (s.drawn x y n).index = s.index := by
  rw [State.drawn, State.drawRows_eq]
  rfl

/-- A draw leaves every coordinate that is not in VF. -/
theorem State.drawn_getV_ne {q : Nibble} (h : q ≠ vf) : (s.drawn x y n).getV q = s.getV q := by
  rw [State.drawn, State.drawRows_getV_ne _ _ _ _ _ h, State.getV_setV_ne _ _ h]

theorem State.drawn_spriteRow (h : y ≠ vf) (r : Nat) : (s.drawn x y n).spriteRow y r = s.spriteRow y r := by
  rw [State.spriteRow, State.drawn_getV_ne s n h, State.spriteRow]

theorem State.drawn_spriteCol (h : x ≠ vf) (c : Nat) : (s.drawn x y n).spriteCol x c = s.spriteCol x c := by
  rw [State.spriteCol, State.drawn_getV_ne s n h, State.spriteCol]

/-- The second draw covers the pixels that the first one did. -/
theorem State.drawn_covers (hx : x ≠ vf) (hy : y ≠ vf) (i : Fin 32) (j : Fin 64) :
    (s.drawn x y n).Covers x y n i j ↔ s.Covers x y n i j := by
  simp only [State.Covers, State.HasSetBit, State.drawn_spriteAt, State.drawn_spriteRow s n hy,
    State.drawn_spriteCol s n hx]

theorem State.drawn_drawn_pixel (hx : x ≠ vf) (hy : y ≠ vf) (i : Fin 32) (j : Fin 64) :
    ((s.drawn x y n).drawn x y n).pixel i j = s.pixel i j := by
  obtain ⟨htoggled, hkept⟩ := s.drawn_pixel x y n i j
  obtain ⟨htoggled', hkept'⟩ := (s.drawn x y n).drawn_pixel x y n i j
  rw [s.drawn_covers n hx hy] at htoggled' hkept'
  by_cases hcov : s.Covers x y n i j
  · rw [htoggled' hcov, htoggled hcov, Bool.not_not]
  · rw [hkept' hcov, hkept hcov]

/-- The second draw collides where the first one set a pixel that was clear. -/
theorem State.drawn_collides (hx : x ≠ vf) (hy : y ≠ vf) :
    (s.drawn x y n).Collides x y n ↔
      s.HasSetBit n fun r c => s.pixel (s.spriteRow y r) (s.spriteCol x c) = false := by
  simp only [State.Collides, State.HasSetBit, State.drawn_spriteAt, State.drawn_spriteRow s n hy,
    State.drawn_spriteCol s n hx]
  refine exists_congr fun r => exists_congr fun c => and_congr_right fun hr => and_congr_right fun hc =>
    and_congr_right fun hbit => ?_
  rw [s.drawn_pixel_xor x y n hr hc, hbit, Bool.xor_true, Bool.not_eq_true']

end Twice

/-- Settles O30: both draws toggle the same pixels, and the second meets a set pixel where the first met a clear one. -/
theorem drwTwiceRestoresTheFramebuffer : Obligations.DrwTwiceRestoresTheFramebuffer := by
  intro x y n s hx hy hin
  have hin' : n.toNat = 0 ∨ (s.drawn x y n).index.toNat + n.toNat ≤ 4096 := by rwa [s.drawn_index n]
  refine ⟨s.drawn x y n, (s.drawn x y n).drawn x y n, exec_drw_inside s x y n hin, exec_drw_inside _ x y n hin',
    s.drawn_drawn_pixel n hx hy, ?_⟩
  exact (State.drawn_vf_eq_one_iff _ x y n).trans (s.drawn_collides n hx hy)

end Sys2Proof.Machine
end

section
/-!
SUPPORT. The statements of the family 42_control_flow.md: the stack handlers RET and CALL (R140, R142) and their
pairing (S5); the jumps (R141, R147); and the skips (R143–R146).
-/

namespace Sys2Proof.Machine

/-! ## Jump targets (R141, R147) -/

theorem zextAddr_toNat (nnn : Addr) : (zextAddr nnn).toNat = nnn.toNat :=
  BitVec.toNat_setWidth_of_le (by decide)

/-- The sum of an address and a byte is at most 0x10FE, so it does not wrap. -/
theorem indexedTarget_toNat (nnn : Addr) (b : Byte) : (indexedTarget nnn b).toNat = nnn.toNat + b.toNat := by
  have hsum : nnn.toNat + b.toNat < 2 ^ 16 := by
    have hnnn := nnn.isLt
    have hb := b.isLt
    omega
  rw [indexedTarget_eq, BitVec.toNat_ofNat, Nat.mod_eq_of_lt hsum]

/-- Settles O32: row 2 of R77, and the handler writes pc. -/
theorem jpJumps : Obligations.JpJumps :=
  ⟨opcodeRows_select 2, fun nnn s => ⟨_, rfl, zextAddr_toNat nnn, s.setPc_changesOnly _ rfl⟩⟩

/-- Settles O37: row 20 of R77, and the handler writes pc. -/
theorem jpV0AddsV0 : Obligations.JpV0AddsV0 :=
  ⟨opcodeRows_select 20, fun nnn s => ⟨_, rfl, indexedTarget_toNat nnn _, s.setPc_changesOnly _ rfl⟩⟩

/-! ## Skips (R143–R146) -/

/-- A skip adds 2 to pc, mod 65536, exactly when its condition holds. -/
theorem State.skipIf_pc_toNat (s : State) (c : Bool) :
    (s.skipIf c).pc.toNat = if c = true then (s.pc.toNat + 2) % 65536 else s.pc.toNat := by
  cases c with
  | true => exact BitVec.toNat_add s.pc 2#16
  | false => rfl

/-- SE's condition. -/
theorem State.skipIf_beq_pc_toNat (s : State) (a b : Byte) :
    (s.skipIf (a == b)).pc.toNat = if a = b then (s.pc.toNat + 2) % 65536 else s.pc.toNat := by
  simp only [State.skipIf_pc_toNat, beq_iff_eq]

/-- SNE's condition. -/
theorem State.skipIf_bne_pc_toNat (s : State) (a b : Byte) :
    (s.skipIf (a != b)).pc.toNat = if a = b then s.pc.toNat else (s.pc.toNat + 2) % 65536 := by
  simp only [State.skipIf_pc_toNat, bne_iff_ne, ne_eq, ite_not]

/-- Settles O35: rows 4 and 5 of R77, and each handler is a skip on its condition. -/
theorem immediateSkips : Obligations.ImmediateSkips :=
  ⟨opcodeRows_select 4, opcodeRows_select 5, fun x kk s =>
    ⟨⟨_, rfl, s.skipIf_beq_pc_toNat (s.getV x) kk, s.skipIf_changesOnly _ rfl⟩,
      ⟨_, rfl, s.skipIf_bne_pc_toNat (s.getV x) kk, s.skipIf_changesOnly _ rfl⟩⟩⟩

/-- Settles O36: rows 6 and 18 of R77, whose masks leave out the low nibble, and each handler is a skip on its
condition. -/
theorem registerSkips : Obligations.RegisterSkips :=
  ⟨opcodeRows_select 6, opcodeRows_select 18, fun x y s =>
    ⟨⟨_, rfl, s.skipIf_beq_pc_toNat (s.getV x) (s.getV y), s.skipIf_changesOnly _ rfl⟩,
      ⟨_, rfl, s.skipIf_bne_pc_toNat (s.getV x) (s.getV y), s.skipIf_changesOnly _ rfl⟩⟩⟩

/-! ## The stack (R31, R140, R142) -/

section Stack

variable (s : State)

theorem exec_ret_pops (hpos : 0 < s.sp.val) : exec .ret s = .next (s.popPc hpos) :=
  dif_pos hpos

theorem exec_ret_underflow (h0 : s.sp.val = 0) : exec .ret s = .next (raised s .stackUnderflow 0) := by
  have hraise : exec .ret s = .next (s.raise .stackUnderflow s.sp.val) := dif_neg (by omega)
  rw [hraise, h0]
  rfl

theorem exec_call_pushes_and_jumps (nnn : Addr) (hlt : s.sp.val < 16) :
    exec (.call nnn) s = .next ((s.push s.pc hlt).setPc (zextAddr nnn)) :=
  dif_pos hlt

theorem exec_call_overflow (nnn : Addr) (h16 : s.sp.val = 16) :
    exec (.call nnn) s = .next (raised s .stackOverflow 16) := by
  have hraise : exec (.call nnn) s = .next (s.raise .stackOverflow s.sp.val) := dif_neg (by omega)
  rw [hraise, h16]
  rfl

theorem State.getElem?_topEntry (hpos : 0 < s.sp.val) : s.stack[s.sp.val - 1]? = some (s.topEntry hpos) :=
  Vector.getElem?_eq_getElem (by have := s.sp.isLt; omega)

end Stack

/-- Settles O31: row 1 of R77, and a pop or a fault. -/
theorem retPopsThePc : Obligations.RetPopsThePc := by
  refine ⟨opcodeRows_select 1, fun s => ⟨fun hne => ?pops, exec_ret_underflow s⟩⟩
  have hpos : 0 < s.sp.val := Nat.pos_of_ne_zero hne
  exact ⟨s.popPc hpos, exec_ret_pops s hpos, rfl, s.getElem?_topEntry hpos,
    s.popPc_changesOnly hpos (.inr rfl) (.inl rfl)⟩

/-- Settles O33: row 3 of R77, and a push and a jump or a fault. -/
theorem callPushesAndJumps : Obligations.CallPushesAndJumps := by
  refine ⟨opcodeRows_select 3, fun nnn s => ⟨fun hne => ?pushes, exec_call_overflow s nnn⟩⟩
  have hlt : s.sp.val < 16 := by have := s.sp.isLt; omega
  have hcall := exec_call_pushes_and_jumps s nnn hlt
  refine ⟨_, hcall, by simp [hlt], rfl, zextAddr_toNat nnn, ?frame⟩
  exact changesOnly_trans s (s.push_changesOnly s.pc hlt (.inr (.inr ⟨_, rfl, rfl⟩)) (.inl rfl))
    (State.setPc_changesOnly _ _ (.inr (.inl rfl)))

/-! ## A call and the return at its target (S5) -/

/-- The step of a handler that raises no fault. -/
theorem step_of_exec_completed {s u : State} {w : Word} (hw : Fetches s w)
    (hu : exec (decodeWord w) (s.latch w) = .next u) (hf : u.fault = none) : step s = .next u.tick := by
  rw [step_of_exec hw hu, State.finish_of_none s hf]

/-- The state behind the step of a CALL fetched as `w`. -/
def State.called (s : State) (w : Word) (nnn : Addr) (hlt : s.sp.val < 16) : State :=
  (((s.latch w).push (s.pc + 2#16) hlt).setPc (zextAddr nnn)).tick

theorem step_of_call {s : State} {w : Word} {nnn : Addr} (hw : Fetches s w) (hcall : decodeWord w = .call nnn)
    (hlt : s.sp.val < 16) : step s = .next (s.called w nnn hlt) :=
  step_of_exec_completed hw (hcall ▸ exec_call_pushes_and_jumps (s.latch w) nnn hlt) hw.1

/-- What the step of a RET leaves in pc, sp and the fault field. -/
theorem step_of_ret {s : State} {w : Word} (hw : Fetches s w) (hret : decodeWord w = .ret) (hpos : 0 < s.sp.val) :
    ∃ u, step s = .next u ∧ u.pc = s.topEntry hpos ∧ u.sp.val = s.sp.val - 1 ∧ u.fault = none :=
  ⟨((s.latch w).popPc hpos).tick, step_of_exec_completed hw (hret ▸ exec_ret_pops (s.latch w) hpos) hw.1, rfl, rfl,
    hw.1⟩

section Called

variable (s : State) (w : Word) (nnn : Addr) (hlt : s.sp.val < 16)

theorem State.called_pc_toNat : (s.called w nnn hlt).pc.toNat = nnn.toNat :=
  zextAddr_toNat nnn

theorem State.called_sp : (s.called w nnn hlt).sp.val = s.sp.val + 1 := rfl

theorem State.called_sp_pos : 0 < (s.called w nnn hlt).sp.val :=
  Nat.succ_pos _

/-- The entry that a return from a call pops is the one that the call pushed. -/
theorem State.called_topEntry : (s.called w nnn hlt).topEntry (s.called_sp_pos w nnn hlt) = s.pc + 2#16 :=
  Vector.getElem_set_self hlt

/-- A call leaves memory, so at its target the word that stood there is fetched. -/
theorem State.called_fetches (hf : s.fault = none) (hnnn : nnn.toNat + 1 < 4096) :
    Fetches (s.called w nnn hlt)
      (wordOfBytes (Memory.read s.mem nnn.toNat) (Memory.read s.mem (nnn.toNat + 1))) := by
  refine ⟨hf, ?_⟩
  rw [WordAtPc, s.called_pc_toNat w nnn hlt]
  exact ⟨hnnn, rfl⟩

end Called

/-- Settles O34: the return fetched at the call's target pops the entry that the call pushed. -/
theorem returnComesBackBehindTheCall : Obligations.ReturnComesBackBehindTheCall := by
  intro s w nnn hw hcall hlt hnnn hret
  have hfetch := s.called_fetches w nnn hlt hw.1 hnnn
  obtain ⟨u, hstep, hpc, hsp, hf⟩ := step_of_ret hfetch hret (s.called_sp_pos w nnn hlt)
  rw [s.called_topEntry w nnn hlt] at hpc
  rw [s.called_sp w nnn hlt, Nat.add_sub_cancel] at hsp
  exact ⟨s.called w nnn hlt, u, step_of_call hw hcall hlt, s.called_pc_toNat w nnn hlt, hstep, hpc, Fin.ext hsp, hf⟩

end Sys2Proof.Machine
end

section
/-!
SUPPORT. The statements of the family 43_alu.md: the handlers that write Vx alone (R170–R175, R181); the values of the
flags (R25); and the handlers that write VF and then Vx (R176–R180), whose operands, but for ADD's, are read after the
write of VF (D2).
-/

namespace Sys2Proof.Machine

/-! ## Vx alone (R170–R175, R181) -/

/-- Settles O39: row 7 of R77, and the handler writes Vx. -/
theorem ldImmediate : Obligations.LdImmediate :=
  ⟨opcodeRows_select 7, fun x kk s => ⟨_, rfl, s.getV_setV_self x kk, s.setV_changesOnly x _ rfl⟩⟩

/-- Settles O40: row 8 of R77, and the handler writes Vx. -/
theorem addImmediateWritesNoFlag : Obligations.AddImmediateWritesNoFlag := by
  refine ⟨opcodeRows_select 8, fun x kk s => ⟨_, rfl, ?sum, s.setV_changesOnly x _ rfl⟩⟩
  rw [State.getV_setV_self, BitVec.toNat_add]

/-- Settles O41: row 9 of R77, and the handler writes Vx. -/
theorem ldRegisterCopies : Obligations.LdRegisterCopies :=
  ⟨opcodeRows_select 9, fun x y s => ⟨_, rfl, s.getV_setV_self x (s.getV y), s.setV_changesOnly x _ rfl⟩⟩

/-- Settles O42: rows 10 to 12 of R77, and each handler writes Vx. -/
theorem logicalOperations : Obligations.LogicalOperations := by
  refine ⟨opcodeRows_select 10, opcodeRows_select 11, opcodeRows_select 12, fun x y s =>
    ⟨⟨_, rfl, fun i => ?or, s.setV_changesOnly x _ rfl⟩, ⟨_, rfl, fun i => ?and, s.setV_changesOnly x _ rfl⟩,
      ⟨_, rfl, fun i => ?xor, s.setV_changesOnly x _ rfl⟩⟩⟩
  case or => rw [State.getV_setV_self, BitVec.getLsbD_or]
  case and => rw [State.getV_setV_self, BitVec.getLsbD_and]
  case xor => rw [State.getV_setV_self, BitVec.getLsbD_xor]

/-- Settles O48: row 21 of R77, and the handler counts the draw and writes Vx. -/
theorem rndMasksAFreeByte : Obligations.RndMasksAFreeByte := by
  refine ⟨opcodeRows_select 21, fun x kk s => ⟨_, rfl, State.getV_setV_self _ x _, ?masked, rfl, ?frame⟩⟩
  case masked =>
    rw [State.getV_setV_self, BitVec.and_assoc, BitVec.and_not_self]
    exact BitVec.and_zero
  case frame =>
    exact changesOnly_trans s (s.countDraw_changesOnly (.inr rfl)) (State.setV_changesOnly _ x _ (.inl rfl))

/-! ## The flags as numbers (R25) -/

theorem flag_toNat (c : Bool) : (flag c).toNat = c.toNat := by
  cases c <;> rfl

theorem flag_decide_toNat (p : Prop) [Decidable p] : (flag (decide p)).toNat = if p then 1 else 0 := by
  by_cases h : p <;> simp [flag, h]

theorem lowBitFlag_toNat (a : Byte) : (lowBitFlag a).toNat = a.toNat % 2 := by
  rw [lowBitFlag, flag_toNat, BitVec.getLsbD, Nat.toNat_testBit, Nat.pow_zero, Nat.div_one]

theorem highBitFlag_toNat (a : Byte) : (highBitFlag a).toNat = a.toNat / 128 := by
  have ha := a.isLt
  rw [highBitFlag, flag_toNat, BitVec.getLsbD, Nat.toNat_testBit]
  omega

/-! ## VF and then Vx: the sum (R176) -/

/-- The value of Vx is written last, so the flag stands unless Vx is VF. -/
theorem State.getV_vf_setV_setV (s : State) {x : Nibble} (f b : Byte) (hx : x ≠ vf) :
    ((s.setV vf f).setV x b).getV vf = f := by
  rw [State.getV_setV_ne _ b hx.symm, State.getV_setV_self]

/-- Settles O43: row 13 of R77, and the sum is of the old operands. -/
theorem addRegisterSetsCarry : Obligations.AddRegisterSetsCarry := by
  refine ⟨opcodeRows_select 13, fun x y s =>
    ⟨_, rfl, ?sum, fun hx => ?carry, s.setV_setV_changesOnly x _ _ (.inr rfl) (.inl rfl)⟩⟩
  case sum => rw [State.getV_setV_self, BitVec.toNat_add]
  case carry => rw [s.getV_vf_setV_setV _ _ hx, carryFlag, flag_decide_toNat]

/-! ## VF and then Vx: the differences (R177, R179) -/

theorem noBorrowFlag_toNat (a b : Byte) : (noBorrowFlag a b).toNat = if a.toNat > b.toNat then 1 else 0 :=
  flag_decide_toNat _

theorem sub_toNat (a b : Byte) : (a - b).toNat = (256 + a.toNat - b.toNat) % 256 := by
  bv_omega

/-- The write of VF, for the minuend Vm and the subtrahend Vn. -/
def State.flagged (s : State) (m n : Nibble) : State := s.setV vf (noBorrowFlag (s.getV m) (s.getV n))

/-- What SUB and SUBN share: the write of VF, then that of Vx, from Vm and Vn as they then stand. -/
def State.subtracted (s : State) (x m n : Nibble) : State :=
  (s.flagged m n).setV x ((s.flagged m n).getV m - (s.flagged m n).getV n)

section Subtracted

variable (s : State) (x y m n : Nibble)

theorem exec_subReg : exec (.subReg x y) s = .next (s.subtracted x x y) := rfl

theorem exec_subnReg : exec (.subnReg x y) s = .next (s.subtracted x y x) := rfl

theorem State.flagged_ne {r : Nibble} (h : r ≠ vf) : (s.flagged m n).getV r = s.getV r :=
  s.getV_setV_ne _ h

theorem State.flagged_vf_toNat :
    ((s.flagged m n).getV vf).toNat = if (s.getV m).toNat > (s.getV n).toNat then 1 else 0 := by
  rw [State.flagged, State.getV_setV_self, noBorrowFlag_toNat]

theorem State.subtracted_vf_toNat (hx : x ≠ vf) :
    ((s.subtracted x m n).getV vf).toNat = if (s.getV m).toNat > (s.getV n).toNat then 1 else 0 := by
  rw [State.subtracted, State.getV_setV_ne _ _ hx.symm, State.flagged_vf_toNat]

theorem State.subtracted_toNat : ((s.subtracted x m n).getV x).toNat =
    (256 + ((s.flagged m n).getV m).toNat - ((s.flagged m n).getV n).toNat) % 256 := by
  rw [State.subtracted, State.getV_setV_self, sub_toNat]

/-- An operand that is VF reads as the flag `f`, any other as its old value. -/
theorem State.subtracted_operands {f : Nat} (hf : (if (s.getV m).toNat > (s.getV n).toNat then 1 else 0) = f) :
    let d := ((s.subtracted x m n).getV x).toNat
    (m ≠ vf → n ≠ vf → d = (256 + (s.getV m).toNat - (s.getV n).toNat) % 256) ∧
    (m ≠ vf → n = vf → d = (256 + (s.getV m).toNat - f) % 256) ∧
    (m = vf → n ≠ vf → d = (256 + f - (s.getV n).toNat) % 256) ∧
    (m = vf → n = vf → d = 0) := by
  intro d
  have hd : d = _ := s.subtracted_toNat x m n
  have hvf : ((s.flagged m n).getV vf).toNat = f := (s.flagged_vf_toNat m n).trans hf
  refine ⟨fun hm hn => ?neither, fun hm hn => ?subtrahend, fun hm hn => ?minuend, fun hm hn => ?both⟩
  case neither => rw [hd, s.flagged_ne m n hm, s.flagged_ne m n hn]
  case subtrahend => rw [hd, s.flagged_ne m n hm, ← hvf, hn]
  case minuend => rw [hd, s.flagged_ne m n hn, ← hvf, hm]
  case both => rw [hd, hm, hn, Nat.add_sub_cancel, Nat.mod_self]

theorem State.subtracted_changesOnly :
    ChangesOnly s (s.subtracted x m n) (fun p => p = .reg x ∨ p = .reg vf) :=
  s.setV_setV_changesOnly x _ _ (.inr rfl) (.inl rfl)

end Subtracted

/-- Settles O44: row 14 of R77, and the operands are read after the write of VF. -/
theorem subRegisterSetsNoBorrow : Obligations.SubRegisterSetsNoBorrow := by
  refine ⟨opcodeRows_select 14, fun x y s => ?_⟩
  obtain ⟨hneither, hy, hx, hboth⟩ := s.subtracted_operands x x y rfl
  refine ⟨_, exec_subReg s x y, s.subtracted_vf_toNat x x y, hneither, hy, ?xIsVf, ?bothAreVf,
    s.subtracted_changesOnly x x y⟩
  case xIsVf => rintro rfl; exact hx rfl
  case bothAreVf => rintro rfl; exact hboth rfl

/-- Settles O46: row 16 of R77, and the operands, those of SUB exchanged, are read after the write of VF. -/
theorem subnRegisterSetsNoBorrow : Obligations.SubnRegisterSetsNoBorrow := by
  refine ⟨opcodeRows_select 16, fun x y s => ?_⟩
  obtain ⟨hneither, hx, hy, hboth⟩ := s.subtracted_operands x y x rfl
  refine ⟨_, exec_subnReg s x y, s.subtracted_vf_toNat x y x, fun hnx hny => hneither hny hnx,
    fun hnx hvy => hy hvy hnx, ?xIsVf, ?bothAreVf, s.subtracted_changesOnly x y x⟩
  case xIsVf => rintro rfl hny; exact hx hny rfl
  case bothAreVf => rintro rfl hvy; exact hboth hvy rfl

/-! ## VF and then Vx: the shifts (R178, R180) -/

theorem shiftRight_toNat (a : Byte) : (a >>> 1).toNat = a.toNat / 2 := by
  rw [BitVec.toNat_ushiftRight, Nat.shiftRight_one]

theorem shiftLeft_toNat (a : Byte) : (a <<< 1).toNat = (2 * a.toNat) % 256 := by
  rw [BitVec.toNat_shiftLeft, Nat.shiftLeft_eq, Nat.pow_one, Nat.mul_comm]

/-- Settles O45: row 15 of R77, whose mask leaves out field y; with x = 0xF the flag is shifted. -/
theorem shrShiftsVxRight : Obligations.ShrShiftsVxRight := by
  refine ⟨opcodeRows_select 15, fun x s =>
    ⟨_, rfl, fun hx => ⟨?shifted, ?bit⟩, fun hx => ?flag, s.setV_setV_changesOnly x _ _ (.inr rfl) (.inl rfl)⟩⟩
  case shifted => rw [State.getV_setV_self, State.getV_setV_ne _ _ hx, shiftRight_toNat]
  case bit => rw [s.getV_vf_setV_setV _ _ hx, lowBitFlag_toNat]
  case flag =>
    subst hx
    rw [State.getV_setV_self, State.getV_setV_self, shiftRight_toNat, lowBitFlag_toNat]
    omega

/-- Settles O47: row 17 of R77, whose mask leaves out field y; with x = 0xF the flag is shifted. -/
theorem shlShiftsVxLeft : Obligations.ShlShiftsVxLeft := by
  refine ⟨opcodeRows_select 17, fun x s =>
    ⟨_, rfl, fun hx => ⟨?shifted, ?bit⟩, fun hx => ?flag, s.setV_setV_changesOnly x _ _ (.inr rfl) (.inl rfl)⟩⟩
  case shifted => rw [State.getV_setV_self, State.getV_setV_ne _ _ hx, shiftLeft_toNat]
  case bit => rw [s.getV_vf_setV_setV _ _ hx, highBitFlag_toNat]
  case flag =>
    subst hx
    have hbyte := (s.getV vf).isLt
    rw [State.getV_setV_self, State.getV_setV_self, shiftLeft_toNat, highBitFlag_toNat]
    omega

end Sys2Proof.Machine
end

section
/-!
SUPPORT. The statements of the family 44_index_memory.md: the handlers that write I alone (R210–R212); the stores at I
(R213, R214); and the load from I (R215). Each access is checked whole, so it moves every byte or raises a fault.
-/

namespace Sys2Proof.Machine

/-! ## I alone (R210–R212) -/

/-- Settles O49: row 19 of R77, and the handler writes I. -/
theorem ldIndexImmediate : Obligations.LdIndexImmediate :=
  ⟨opcodeRows_select 19, fun nnn s => ⟨_, rfl, zextAddr_toNat nnn, s.setIndex_changesOnly _ rfl⟩⟩

theorem zextByte_toNat (b : Byte) : (zextByte b).toNat = b.toNat :=
  BitVec.toNat_setWidth_of_le (by decide)

/-- Settles O50: row 29 of R77, and the handler writes I. -/
theorem addIndexWritesNoFlag : Obligations.AddIndexWritesNoFlag := by
  refine ⟨opcodeRows_select 29, fun x s => ⟨_, rfl, ?sum, s.setIndex_changesOnly _ rfl⟩⟩
  rw [State.setIndex_index, BitVec.toNat_add, zextByte_toNat]

/-- Settles O51: row 30 of R77, and the handler writes I. -/
theorem ldGlyphAddress : Obligations.LdGlyphAddress :=
  ⟨opcodeRows_select 30, fun _ s => ⟨_, rfl, BitVec.toNat_ofNat _ _, s.setIndex_changesOnly _ rfl⟩⟩

/-! ## Stores at I (R213, R214) -/

section Stores

variable (s : State) {bs : List Byte}

/-- Inside a canonical memory the bytes are stored at I, I + 1, … and nothing else changes. -/
theorem State.storeOrRaise_inside (hm : Memory.wf s.mem = true) (hin : s.index.toNat + bs.length ≤ 4096) :
    ∃ t, s.storeOrRaise bs = .next t ∧
      (∀ j (hj : j < bs.length), Memory.read t.mem (s.index.toNat + j) = bs[j]) ∧
      ChangesOnly s t (fun p => ∃ j, j < bs.length ∧ p = .byte (s.index.toNat + j)) := by
  have hw : s.writeBytes s.index.toNat bs = .ok { s with mem := Memory.writeList s.mem s.index.toNat bs } := by
    rw [State.writeBytes_eq, if_pos (.inr hin)]
  simp only [State.storeOrRaise, hw]
  refine ⟨_, rfl, Memory.read_writeList_stored hm hin, s.writeBytes_changesOnly hw fun a hlo hhi => ?_⟩
  exact ⟨a - s.index.toNat, by omega, by rw [Nat.add_sub_cancel' hlo]⟩

theorem State.storeOrRaise_outside (hne : bs.length ≠ 0) (hout : 4096 < s.index.toNat + bs.length) :
    s.storeOrRaise bs = .next (raised s .memWrite (lowestOutside s.index.toNat)) := by
  have hw : s.writeBytes s.index.toNat bs = .error (lowestOutside s.index.toNat) := by
    rw [State.writeBytes_eq, Config.memSize_eq, if_neg (by omega)]
  simp only [State.storeOrRaise, hw]
  rfl

end Stores

/-- The hundreds of a byte fit in a byte, and so do its other digits. -/
theorem decimalDigits_toNat (b : Byte) :
    (decimalDigits b)[0].toNat = b.toNat / 100 ∧ (decimalDigits b)[1].toNat = b.toNat / 10 % 10 ∧
      (decimalDigits b)[2].toNat = b.toNat % 10 := by
  have hb := b.isLt
  simp only [decimalDigits, List.getElem_cons_zero, List.getElem_cons_succ, BitVec.toNat_ofNat]
  omega

/-- Settles O52: row 31 of R77, and a store of three bytes or a fault. -/
theorem ldDecimalDigits : Obligations.LdDecimalDigits := by
  refine ⟨opcodeRows_select 31, fun x s => ⟨fun hin hm => ?inside, fun hout => ?outside⟩⟩
  case inside =>
    obtain ⟨t, ht, hread, hframe⟩ := s.storeOrRaise_inside (bs := decimalDigits (s.getV x)) hm hin
    obtain ⟨hhundreds, htens, hunits⟩ := decimalDigits_toNat (s.getV x)
    have hdigit := fun j hj => congrArg BitVec.toNat (hread j hj)
    exact ⟨t, ht, (hdigit 0 (by simp)).trans hhundreds, (hdigit 1 (by simp)).trans htens,
      (hdigit 2 (by simp)).trans hunits, hframe⟩
  case outside => exact s.storeOrRaise_outside (by simp) (Nat.lt_succ_of_le hout)

/-- Fx55's byte number r is V[r]. -/
theorem State.regsUpTo_getElem (s : State) {x r : Nibble} (hr : r.toNat < (s.regsUpTo x).length) :
    (s.regsUpTo x)[r.toNat] = s.getV r := by
  simp [State.regsUpTo, State.getVNat]

/-- Settles O53: row 32 of R77, and a store of x + 1 bytes or a fault. -/
theorem storeRegisters : Obligations.StoreRegisters := by
  refine ⟨opcodeRows_select 32, fun x s => ?_⟩
  have hlen := s.regsUpTo_length x
  rw [exec_ldMemVx]
  refine ⟨fun hin hm => ?inside, fun hout => ?outside⟩
  case inside =>
    obtain ⟨t, ht, hread, hframe⟩ := s.storeOrRaise_inside (bs := s.regsUpTo x) hm (by omega)
    simp only [hlen, Nat.lt_succ_iff] at hframe
    exact ⟨t, ht, fun r hr => (hread r.toNat (by omega)).trans (s.regsUpTo_getElem _), hframe⟩
  case outside => exact s.storeOrRaise_outside (by omega) (by omega)

/-! ## The load from I (R215) -/

/-- The bytes that Fx65 reads. -/
def State.bytesUpTo (s : State) (x : Nibble) : List Byte :=
  (List.range (x.toNat + 1)).map fun j => Memory.read s.mem (s.index.toNat + j)

section Load

variable (s : State) (x : Nibble)

theorem State.bytesUpTo_length : (s.bytesUpTo x).length = x.toNat + 1 := by
  rw [State.bytesUpTo, List.length_map, List.length_range]

theorem exec_ldVxMem_inside (hin : s.index.toNat + x.toNat < 4096) :
    exec (.ldVxMem x) s = .next (s.loadRegs 0 (s.bytesUpTo x)) := by
  have hread : s.readBytes s.index.toNat (x.toNat + 1) = .ok (s.bytesUpTo x) := by
    rw [State.readBytes_eq, if_pos (.inr hin), State.bytesUpTo]
  simp only [exec, execLdVxMem, hread]

theorem exec_ldVxMem_outside (hout : 4096 ≤ s.index.toNat + x.toNat) :
    exec (.ldVxMem x) s = .next (raised s .memRead (lowestOutside s.index.toNat)) := by
  have hread : s.readBytes s.index.toNat (x.toNat + 1) = .error (lowestOutside s.index.toNat) := by
    rw [State.readBytes_eq, Config.memSize_eq, if_neg (by omega)]
  simp only [exec, execLdVxMem, hread]
  rfl

theorem State.loadRegs_bytesUpTo_getV {r : Nibble} (hr : r.toNat ≤ x.toNat) :
    (s.loadRegs 0 (s.bytesUpTo x)).getV r = Memory.read s.mem (s.index.toNat + r.toNat) := by
  have hx := x.isLt
  rw [State.loadRegs_getV _ _ _ (by rw [State.bytesUpTo_length]; omega)]
  simp [State.bytesUpTo, Nat.lt_succ_of_le hr]

end Load

/-- Settles O54: row 33 of R77, and a load of x + 1 registers or a fault. -/
theorem loadRegisters : Obligations.LoadRegisters := by
  refine ⟨opcodeRows_select 33, fun x s => ⟨fun hin => ?inside, exec_ldVxMem_outside s x⟩⟩
  have hx := x.isLt
  have hlen := s.bytesUpTo_length x
  refine ⟨_, exec_ldVxMem_inside s x hin, fun r => s.loadRegs_bytesUpTo_getV x, ?frame⟩
  exact s.loadRegs_changesOnly _ (by omega) fun r hr => ⟨r, by omega, rfl⟩

end Sys2Proof.Machine
end

section
/-!
SUPPORT. The statements of the family 45_keypad_timers.md: the key skips and their fault (R240, R241); the wait for a
key (R243); and the reads and writes of the timers, before the tick of the same step (R242, R244, R245).
-/

namespace Sys2Proof.Machine

/-! ## Key skips (R240, R241) -/

section KeySkips

variable (s : State) {x : Nibble}

theorem State.keySlot_inside {b : Byte} {k : Fin 16} (hk : b.toNat = k.val) : s.keySlot b = .ok s.key[k.val] := by
  rw [State.keySlot_eq, hk, Vector.getElem?_eq_getElem k.isLt]

theorem State.keySlot_outside {b : Byte} (hout : 15 < b.toNat) : s.keySlot b = .error b.toNat := by
  rw [State.keySlot_eq, Vector.getElem?_eq_none (by omega)]

theorem exec_skp_inside {k : Fin 16} (hk : (s.getV x).toNat = k.val) :
    exec (.skp x) s = .next (s.skipIf s.key[k.val]) := by
  simp only [exec, execSkp, s.keySlot_inside hk]

theorem exec_sknp_inside {k : Fin 16} (hk : (s.getV x).toNat = k.val) :
    exec (.sknp x) s = .next (s.skipIf (!s.key[k.val])) := by
  simp only [exec, execSknp, s.keySlot_inside hk]

theorem exec_skp_outside (hout : 15 < (s.getV x).toNat) :
    exec (.skp x) s = .next (raised s .keyIndex (s.getV x).toNat) := by
  simp only [exec, execSkp, s.keySlot_outside hout]
  rfl

theorem exec_sknp_outside (hout : 15 < (s.getV x).toNat) :
    exec (.sknp x) s = .next (raised s .keyIndex (s.getV x).toNat) := by
  simp only [exec, execSknp, s.keySlot_outside hout]
  rfl

/-- SKNP's condition. -/
theorem State.skipIf_not_pc_toNat (c : Bool) :
    (s.skipIf (!c)).pc.toNat = if c = true then s.pc.toNat else (s.pc.toNat + 2) % 65536 := by
  rw [State.skipIf_pc_toNat]
  cases c <;> rfl

end KeySkips

/-- Settles O55: rows 23 and 24 of R77, and each handler is a skip on the key's slot or, above 15, a fault. -/
theorem keySkips : Obligations.KeySkips := by
  refine ⟨opcodeRows_select 23, opcodeRows_select 24, fun x s => ⟨fun k hk => ⟨?skp, ?sknp⟩, fun hout => ?fault⟩⟩
  case skp => exact ⟨_, exec_skp_inside s hk, s.skipIf_pc_toNat _, s.skipIf_changesOnly _ rfl⟩
  case sknp => exact ⟨_, exec_sknp_inside s hk, s.skipIf_not_pc_toNat _, s.skipIf_changesOnly _ rfl⟩
  case fault => exact ⟨exec_skp_outside s hout, exec_sknp_outside s hout⟩

/-! ## The wait for a key (R243) -/

section Wait

variable (s : State) (x : Nibble) {k : Fin 16}

theorem State.firstPressed_of_lowest (hk : s.key[k.val] = true) (hlow : ∀ j : Fin 16, j < k → s.key[j.val] = false) :
    s.firstPressed = some k.val := by
  refine (s.firstPressed_eq_some k.val).mpr ⟨?pressed, fun j hj => ?below⟩
  case pressed => rw [Vector.getElem?_eq_getElem k.isLt, hk]
  case below =>
    have hj16 : j < 16 := hj.trans k.isLt
    rw [Vector.getElem?_eq_getElem hj16, hlow ⟨j, hj16⟩ hj]

theorem exec_ldVxK_pressed (hk : s.key[k.val] = true) (hlow : ∀ j : Fin 16, j < k → s.key[j.val] = false) :
    exec (.ldVxK x) s = .next (s.setV x (BitVec.ofNat 8 k.val)) := by
  simp only [exec, execLdVxK, s.firstPressed_of_lowest hk hlow]

theorem exec_ldVxK_waits (hnone : ∀ k : Fin 16, s.key[k.val] = false) :
    exec (.ldVxK x) s = .next s.repeatInstr := by
  simp only [exec, execLdVxK, s.firstPressed_eq_none.mpr hnone]

/-- The repeat takes back the advance of the fetch, so a waiting step leaves its latch and its tick. -/
theorem State.latch_repeatInstr_pc (w : Word) : (s.latch w).repeatInstr.pc = s.pc :=
  BitVec.add_sub_cancel s.pc 2#16

theorem State.latch_repeatInstr_tick_changesOnly (w : Word) {may : Part → Prop} (hdt : may .dt) (hst : may .st)
    (hopcode : may .opcode) : ChangesOnly s (s.latch w).repeatInstr.tick may := by
  apply changesOnly_of_fields
  case hpc => exact fun _ => s.latch_repeatInstr_pc w
  all_goals simp [hdt, hst, hopcode]

theorem step_of_ldVxK_waits {w : Word} (hw : Fetches s w) (hdec : decodeWord w = .ldVxK x)
    (hnone : ∀ k : Fin 16, s.key[k.val] = false) : step s = .next (s.latch w).repeatInstr.tick :=
  step_of_exec_completed hw (hdec ▸ exec_ldVxK_waits (s.latch w) x hnone) hw.1

end Wait

/-- Settles O57: row 26 of R77, and the scan finds the lowest pressed key or the handler undoes the advance of pc. -/
theorem ldKeyWaits : Obligations.LdKeyWaits := by
  refine ⟨opcodeRows_select 26, fun x s k hk hlow => ?pressed, fun x s hnone => ?waits, fun s w hw hm hnone => ?step⟩
  case pressed =>
    refine ⟨_, exec_ldVxK_pressed s x hk hlow, ?_, s.setV_changesOnly x _ rfl⟩
    rw [State.getV_setV_self, BitVec.toNat_ofNat, Nat.mod_eq_of_lt (k.isLt.trans (by decide))]
  case waits => exact ⟨_, exec_ldVxK_waits s x hnone, rfl, s.setPc_changesOnly _ rfl⟩
  case step =>
    exact ⟨_, step_of_ldVxK_waits s _ hw (opcodeRows_select 26 w hm) hnone, s.latch_repeatInstr_pc w,
      countDown_toNat s.dt, countDown_toNat s.st,
      s.latch_repeatInstr_tick_changesOnly w (.inl rfl) (.inr (.inl rfl)) (.inr (.inr rfl))⟩

/-! ## The timers (R242, R244, R245) -/

section Timers

variable {s : State} {w : Word} {x : Nibble}

theorem step_of_ldVxDt (hw : Fetches s w) (hdec : decodeWord w = .ldVxDt x) :
    step s = .next ((s.latch w).setV x s.dt).tick :=
  step_of_exec_completed hw (hdec ▸ rfl) hw.1

theorem step_of_ldDtVx (hw : Fetches s w) (hdec : decodeWord w = .ldDtVx x) :
    step s = .next ((s.latch w).setDt (s.getV x)).tick :=
  step_of_exec_completed hw (hdec ▸ rfl) hw.1

theorem step_of_ldStVx (hw : Fetches s w) (hdec : decodeWord w = .ldStVx x) :
    step s = .next ((s.latch w).setSt (s.getV x)).tick :=
  step_of_exec_completed hw (hdec ▸ rfl) hw.1

end Timers

/-- Settles O56: row 25 of R77, and the handler writes Vx before the tick. -/
theorem ldDelayTimerReads : Obligations.LdDelayTimerReads :=
  ⟨opcodeRows_select 25, fun x s => ⟨_, rfl, s.getV_setV_self x s.dt, s.setV_changesOnly x _ rfl⟩, fun s w hw hm =>
    ⟨_, step_of_ldVxDt hw (opcodeRows_select 25 w hm), State.getV_setV_self _ _ s.dt, countDown_toNat s.dt⟩⟩

/-- Settles O58: row 27 of R77, and the tick counts down from what the handler wrote. -/
theorem ldDelayTimerSets : Obligations.LdDelayTimerSets :=
  ⟨opcodeRows_select 27, fun x s => ⟨_, rfl, s.setDt_dt (s.getV x), s.setDt_changesOnly _ rfl⟩, fun s w hw hm =>
    ⟨_, step_of_ldDtVx hw (opcodeRows_select 27 w hm), countDown_toNat (s.getV (xField w))⟩⟩

/-- Settles O59: row 28 of R77, and the tick counts down from what the handler wrote. -/
theorem ldSoundTimerSets : Obligations.LdSoundTimerSets :=
  ⟨opcodeRows_select 28, fun x s => ⟨_, rfl, s.setSt_st (s.getV x), s.setSt_changesOnly _ rfl⟩, fun s w hw hm =>
    ⟨_, step_of_ldStVx hw (opcodeRows_select 28 w hm), countDown_toNat (s.getV (xField w))⟩⟩

end Sys2Proof.Machine
end

section
/-!
SUPPORT. The statements of the family 60_exceptions.md: the record that a faulting step writes (R271, R273, R274); and
`initialize()`, the way out of a fault (R276, R300), after which a load reports to the host and sets no fault (R302).
-/

namespace Sys2Proof.Machine

/-! ## The record (R271, R273, R274) -/

/-- Settles O12: every record of a step is as the spec says, and the codes are R271's. -/
theorem faultRecordsAreAsTheSpecSays : Obligations.FaultRecordsAreAsTheSpecSays :=
  ⟨fun _ _ _ h hr => (step_records h hr).2, rfl, rfl, rfl, rfl, rfl, rfl⟩

/-! ## The way out of a fault (R276, R300, R302) -/

/-- An image too large is reported and not recorded, and one that fits goes to memory alone. -/
@[simp] theorem State.load_fault (s : State) (image : List Byte) : (s.load image).2.fault = s.fault := by
  unfold State.load
  split
  case isTrue hlarge => rfl
  case isFalse hfits => rfl

/-- Settles O26: a load keeps the fault field, which the reset state holds empty. -/
theorem initializeResetsAnyState : Obligations.InitializeResetsAnyState :=
  fun s => ⟨rfl, fun image => s.hostInitialize.load_fault image⟩

end Sys2Proof.Machine
end

section
/-!
SUPPORT. The statements of the family 70_reset_and_hazards.md: a load stores the whole image or nothing (R302); and
every state of a run in the boot order meets the invariant (R300, R303).
-/

namespace Sys2Proof.Machine

/-! ## Load (R302) -/

/-- A load of an image that fits is a checked store at ENTRY, and its last address is 0xFFF at most. -/
theorem State.load_fits (s : State) {image : List Byte} (h : image.length ≤ 3584) :
    ∃ t, s.load image = (.loaded, t) ∧ s.writeBytes 0x200 image = .ok t := by
  have hsize : ¬ image.length > Config.romMax := Nat.not_lt.mpr h
  have hin : 0x200 + image.length ≤ Config.memSize := by rw [Config.memSize_eq]; omega
  refine ⟨{ s with mem := Memory.writeList s.mem 0x200 image }, ?load, ?store⟩
  case load => rw [State.load, if_neg hsize, Config.entry_eq]
  case store => rw [State.writeBytes_eq, if_pos (.inr hin)]

theorem State.load_too_large (s : State) {image : List Byte} (h : 3584 < image.length) :
    s.load image = (.romTooLarge, s) := by
  have hsize : image.length > Config.romMax := h
  rw [State.load, if_pos hsize]

/-- Every byte that a checked store wrote to a canonical memory is read again. -/
theorem State.writeBytes_stored {s t : State} {base : Nat} {bs : List Byte} (hw : s.writeBytes base bs = .ok t)
    (hm : Memory.wf s.mem = true) {j : Nat} (hj : j < bs.length) : Memory.read t.mem (base + j) = bs[j] := by
  rw [State.writeBytes_eq] at hw
  split at hw
  case isTrue hin =>
    cases hw
    exact Memory.read_writeList_stored hm (hin.resolve_left (Nat.ne_zero_of_lt hj)) j hj
  case isFalse => cases hw

/-- Settles O27: the image that fits is stored whole, and the longer one is only reported. -/
theorem loadStoresTheImageOrNothing : Obligations.LoadStoresTheImageOrNothing := by
  refine fun s image hm => ⟨fun hfits => ?_, s.load_too_large⟩
  obtain ⟨t, hload, hw⟩ := s.load_fits hfits
  exact ⟨t, hload, fun i => State.writeBytes_stored hw hm i.isLt,
    s.writeBytes_changesOnly hw fun a hlo hhi => ⟨a, rfl, hlo, hhi⟩⟩

/-! ## Runs in the boot order (R300, R303, R309) -/

theorem State.load_keeps_wf (s : State) (image : List Byte) (hm : Memory.wf s.mem = true) :
    Memory.wf (s.load image).2.mem = true := by
  rcases Nat.lt_or_ge 3584 image.length with hlarge | hfits
  · rw [s.load_too_large hlarge]
    exact hm
  · obtain ⟨t, hload, hw⟩ := s.load_fits hfits
    rw [hload]
    exact State.writeBytes_keeps_wf hw hm

/-- The reset memory is canonical, so the loaded one is; and no fault is recorded. -/
theorem State.boot_inv (s : State) (image : List Byte) : Inv (s.boot image).2 := by
  refine ⟨s.hostInitialize.load_keeps_wf image Memory.wf_reset, fun r hr => ?_⟩
  have hnone : (s.boot image).2.fault = none := (initializeResetsAnyState s).2 image
  rw [hnone] at hr
  cases hr

/-- The invariant does not speak of the keypad: R271's conditions look at sp, I and V. -/
theorem State.setKeys_inv {s : State} {keys : Vector Bool 16} : Inv (s.setKeys keys) ↔ Inv s := Iff.rfl

/-- A session that answers has taken a step for its first snapshot, and goes on from there. -/
theorem State.session_cons {s t : State} {keys : Vector Bool 16} {rest : List (Vector Bool 16)}
    (h : s.session (keys :: rest) = .next t) : ∃ u, step (s.setKeys keys) = .next u ∧ u.session rest = .next t := by
  rw [State.session] at h
  split at h
  case h_1 u hu => exact ⟨u, hu, h⟩
  case h_2 => cases h
  case h_3 => cases h

/-- What the keypad does not touch and every step keeps, every session keeps. -/
theorem State.session_keeps {P : State → Prop} (hkeys : ∀ s keys, P s → P (s.setKeys keys))
    (hstep : ∀ s t, P s → step s = .next t → P t) {s t : State} {keys : List (Vector Bool 16)} (hs : P s)
    (h : s.session keys = .next t) : P t := by
  induction keys generalizing s with
  | nil => cases h; exact hs
  | cons keys rest ih =>
    obtain ⟨u, hu, hrest⟩ := State.session_cons h
    exact ih (hstep _ u (hkeys s keys hs) hu) hrest

/-- Settles O23, by induction on the run: the boot establishes the invariant, and each keypad write and step keep it. -/
theorem everyRunKeepsTheInvariant : Obligations.EveryRunKeepsTheInvariant :=
  fun s image _ _ => State.session_keeps (P := Inv) (fun _ _ => State.setKeys_inv.mpr) everyStepKeepsTheInvariant
    (s.boot_inv image)

end Sys2Proof.Machine
end
